-- ==== Sys2Proof/Word.lean ====
section
/-! DEFINITION. The word types of RINGFIFO: the 32-bit command word and counter (00_scope.md R7, R9, R10)
and the 16-bit holder of an item (20_memory.md R42, R44). All values are unsigned; arithmetic on `BitVec 32` is the
spec's `+32` and `−32`. -/

namespace Sys2Proof

/-- A command word, CMD_BITS = 32 bits wide (00_scope.md R7, 30_encoding.md R60). -/
abbrev Word := BitVec 32

/-- A value of `read_index` or `write_index`, CTR_BITS = 32 bits wide, taken modulo 2^32 (00_scope.md R7, R10). -/
abbrev Counter := BitVec 32

/-- The holder of one item. An item has ITEM_BITS bits, 8 or 16 (00_scope.md R7); an 8-bit item stands in the low
8 bits with zeros above (log 13). -/
abbrev Item := BitVec 16

end Sys2Proof
end

