-- ==== Sys2Proof/Syntax.lean ====
section
/-! DEFINITION. The commands of RINGFIFO (30_encoding.md R62, spec/opcode_table.json): one constructor per row. -/

namespace Sys2Proof

/-- A command, as the opcode table lists it. -/
inductive Instr where
  /-- CONFIG e: set the capacity exponent and empty the buffer (40_config.md R81). ARG is 8 bits (30_encoding.md R61). -/
  | config (e : BitVec 8)
  /-- PUSH data: append one item, evicting the oldest when full (41_push.md R90). DATA is 16 bits (30_encoding.md R61). -/
  | push (data : BitVec 16)
  /-- POP: remove and return the oldest item (42_fetch.md R100). -/
  | pop
  /-- LEN: return the occupancy (43_status.md R110). -/
  | len
  /-- CAP: return the capacity (43_status.md R111). -/
  | cap
  /-- FULL: report whether the buffer is full (43_status.md R112). -/
  | full
  /-- FREE: report whether the buffer has free space (43_status.md R113). -/
  | free
  deriving DecidableEq, Repr

end Sys2Proof
end

