-- ==== Sys2Proof/Decode.lean ====
section
/-! DEFINITION. The command word: its fields (30_encoding.md R60), the opcode table as rows of match and mask (R63), the
decoder, total on every word, with the word checks of R65 in their order, each rejecting by name, and the encoder (R60, R69).
The port check and the item width check of R65 are not the word's: they stand in the meanings (Machine/Ops.lean). -/

namespace Sys2Proof

/-- OP = w[3:0] (30_encoding.md R60). -/
def opField (w : Word) : BitVec 4 := w.extractLsb' 0 4

/-- RSV = w[7:4] (30_encoding.md R60). -/
def rsvField (w : Word) : BitVec 4 := w.extractLsb' 4 4

/-- ARG = w[15:8] (30_encoding.md R60). -/
def argField (w : Word) : BitVec 8 := w.extractLsb' 8 8

/-- DATA = w[31:16] (30_encoding.md R60). -/
def dataField (w : Word) : BitVec 16 := w.extractLsb' 16 16

/-- Why a word is no command: the first four checks of 30_encoding.md R65, in their order. -/
inductive Reject where
  /-- OP is 0x0 or 0x8 to 0xF (30_encoding.md R66). -/
  | reservedOpcode
  /-- RSV is not 0. -/
  | reservedField
  /-- ARG is not 0 in a command other than CONFIG. -/
  | argNotZero
  /-- DATA is not 0 in a command other than PUSH. -/
  | dataNotZero
  deriving DecidableEq, Repr

/-- The decoder: the word checks of 30_encoding.md R65 in their order, then the opcode map of R62. -/
def decode (w : Word) : Except Reject Instr :=
  if opField w = 0x0#4 ∨ 0x8#4 ≤ opField w then .error .reservedOpcode
  else if rsvField w ≠ 0x0#4 then .error .reservedField
  else if opField w ≠ 0x1#4 ∧ argField w ≠ 0x0#8 then .error .argNotZero
  else if opField w ≠ 0x2#4 ∧ dataField w ≠ 0x0#16 then .error .dataNotZero
  else if opField w = 0x1#4 then .ok (.config (argField w))
  else if opField w = 0x2#4 then .ok (.push (dataField w))
  else if opField w = 0x3#4 then .ok .pop
  else if opField w = 0x4#4 then .ok .len
  else if opField w = 0x5#4 then .ok .cap
  else if opField w = 0x6#4 then .ok .full
  else .ok .free

/-- The opcode of a command (30_encoding.md R62). -/
def opcodeOf : Instr → BitVec 4
  | .config _ => 0x1#4
  | .push _ => 0x2#4
  | .pop => 0x3#4
  | .len => 0x4#4
  | .cap => 0x5#4
  | .full => 0x6#4
  | .free => 0x7#4

/-- A command word put together from its three variable fields, RSV being 0 (30_encoding.md R60). -/
def packWord (data : BitVec 16) (arg : BitVec 8) (op : BitVec 4) : Word :=
  data ++ (arg ++ (0x0#4 ++ op))

/-- The encoder: the word of a command (30_encoding.md R60, R62). -/
def encode : Instr → Word
  | .config e => packWord 0x0#16 e (opcodeOf (.config e))
  | .push data => packWord data 0x0#8 (opcodeOf (.push data))
  | .pop => packWord 0x0#16 0x0#8 (opcodeOf .pop)
  | .len => packWord 0x0#16 0x0#8 (opcodeOf .len)
  | .cap => packWord 0x0#16 0x0#8 (opcodeOf .cap)
  | .full => packWord 0x0#16 0x0#8 (opcodeOf .full)
  | .free => packWord 0x0#16 0x0#8 (opcodeOf .free)

/-- The mnemonic of a command, as spec/opcode_table.json spells it. -/
def mnemonicOf : Instr → String
  | .config _ => "CONFIG"
  | .push _ => "PUSH"
  | .pop => "POP"
  | .len => "LEN"
  | .cap => "CAP"
  | .full => "FULL"
  | .free => "FREE"

/-- A row of the opcode table of 30_encoding.md R63. -/
structure OpcodeRow where
  mnemonic : String
  matchBits : Word
  mask : Word
  deriving DecidableEq, Repr

/-- The seven rows of 30_encoding.md R63. -/
def opcodeRows : List OpcodeRow :=
  [⟨"CONFIG", 0x00000001#32, 0xFFFF00FF#32⟩, ⟨"PUSH", 0x00000002#32, 0x0000FFFF#32⟩, ⟨"POP", 0x00000003#32, 0xFFFFFFFF#32⟩,
   ⟨"LEN", 0x00000004#32, 0xFFFFFFFF#32⟩, ⟨"CAP", 0x00000005#32, 0xFFFFFFFF#32⟩, ⟨"FULL", 0x00000006#32, 0xFFFFFFFF#32⟩,
   ⟨"FREE", 0x00000007#32, 0xFFFFFFFF#32⟩]

/-- A word selects a row's command when `(w & mask) = match` (30_encoding.md R63). -/
def OpcodeRow.selects (r : OpcodeRow) (w : Word) : Bool := w &&& r.mask == r.matchBits

/-- The word that the host numbers `w`, `nbits` bits of it given by the table, every bit above them 0. -/
def tableWord (nbits w : Nat) : Word := BitVec.ofNat 32 (w % 2 ^ nbits)

/-- The command the decoder reads from a table row's word; none where it rejects the word. -/
def decodeTableWord (nbits w : Nat) : Option Instr := (decode (tableWord nbits w)).toOption

end Sys2Proof
end

