-- ==== Sys2Proof/Config.lean ====
section
/-! DEFINITION. What an instance of RINGFIFO fixes: the item width parameter and the sizes of 00_scope.md R7, the names of
the three ports (60_exceptions.md R130), and the one free value of the model, the contents of a slot that nothing has written
(10_state.md R28, 93_implementation_defined.md U1, U2). -/

namespace Sys2Proof

/-- ITEM_BITS, the block's one open parameter: 8 or 16 bits an item (00_scope.md R7, U6). -/
inductive ItemWidth where
  | w8
  | w16
  deriving DecidableEq, Repr

/-- The number of bits of an item (00_scope.md R7). -/
def ItemWidth.bits : ItemWidth → Nat
  | .w8 => 8
  | .w16 => 16

/-- The three command ports (60_exceptions.md R130): P, C and H. -/
inductive Port where
  | producer
  | consumer
  | host
  deriving DecidableEq, Repr

/-- The default of ITEM_BITS (00_scope.md R7). -/
def Config.defaultItemBits : ItemWidth := .w8

/-- DEFAULT_EXP, the capacity exponent after reset (00_scope.md R7, 70_reset_and_hazards.md R140). -/
def Config.defaultExp : BitVec 5 := 16#5

/-- The smallest accepted capacity exponent (00_scope.md R7, 40_config.md R81). -/
def Config.minExp : Nat := 2

/-- The largest accepted capacity exponent (00_scope.md R7, 40_config.md R81). -/
def Config.maxExp : Nat := 16

/-- STORE_SLOTS, the number of physical slots (00_scope.md R7, 10_state.md R20). -/
def Config.storeSlots : Nat := 65536

/-- FREE VALUE (log 3): what a slot that nothing has written since reset number `era` holds. 10_state.md R28 leaves it
unspecified; nothing constrains it. The arguments are the era and the slot number. -/
opaque Config.unwrittenSlot : Nat → Nat → BitVec 16

end Sys2Proof
end

