-- ==== Sys2Proof/Machine/State.lean ====
section
/-! DEFINITION. The state of the machine: the block's four elements (10_state.md R20), its parameter ITEM_BITS
(00_scope.md R7), and, as fields of the model's own, what stands outside the block: the port of the command being executed,
the latest response, the agents' remaining work and the schedule (00_scope.md R12, 60_exceptions.md R130, R131; log 4 to 6).
The store is a list of (slot number, item) pairs in one canonical form (Machine/Ops.lean). -/

namespace Sys2Proof.Machine

/-- The status of a response (30_encoding.md R64). There is no fourth one: code 3 is never returned (U5). -/
inductive Status where
  /-- OK, code 0. -/
  | ok
  /-- INVALID_CAPACITY, code 1 (60_exceptions.md R120). -/
  | invalidCapacity
  /-- ILLEGAL_COMMAND, code 2 (60_exceptions.md R120). -/
  | illegalCommand
  deriving DecidableEq, Repr

/-- The response record of a command (30_encoding.md R64). -/
structure Response where
  /-- The status. -/
  st : Status
  /-- Whether `val` carries a result. -/
  vld : Bool
  /-- The result; 0 when `vld` is false. -/
  val : Word
  deriving DecidableEq, Repr

/-- The backing store: the slots written since reset, each with its item, slot numbers strictly rising (10_state.md R20,
20_memory.md R40). A slot that is not listed has not been written (10_state.md R28). -/
abbrev Store := List (Nat × Item)

/-- A piece of work of the producer agent. -/
inductive ProducerTask where
  /-- Present one raw word (60_exceptions.md R138). -/
  | word (w : Word)
  /-- A PUSHN burst: the items still to push, and how many PUSHes it has issued (30_encoding.md R70). -/
  | pushN (items : List Item) (sent : Nat)
  deriving DecidableEq, Repr

/-- A piece of work of the consumer agent. -/
inductive ConsumerTask where
  /-- Present one raw word (60_exceptions.md R138). -/
  | word (w : Word)
  /-- A FETCH burst of `m` items that has got `out` so far (30_encoding.md R71), or a FETCHL burst after its LEN, with
  the count `m` it fixed (R72). -/
  | fetch (m : Word) (out : List Item)
  /-- A FETCHL burst that has not issued its LEN yet (30_encoding.md R72). -/
  | fetchL (m : Word)
  deriving DecidableEq, Repr

/-- What an agent gets back. -/
inductive AgentResult where
  /-- The response to a raw word. -/
  | reply (r : Response)
  /-- The result of PUSHN: the count pushed (30_encoding.md R70). -/
  | pushed (n : Nat)
  /-- The result of FETCH or FETCHL: the count fetched and the items (30_encoding.md R71, R72). -/
  | fetched (c : Nat) (out : List Item)
  deriving DecidableEq, Repr

/-- An agent: the work it still has to issue, and its results, oldest first. -/
structure Agent (τ : Type) where
  todo : List τ
  results : List AgentResult
  deriving DecidableEq, Repr

/-- One choice of the world outside: which port is served next (60_exceptions.md R131), or a reset between two commands
(70_reset_and_hazards.md R141). -/
inductive Turn where
  | port (p : Port)
  | reset
  deriving DecidableEq, Repr

/-- The machine's state. -/
structure State where
  /-- ITEM_BITS, the parameter of the instance; no step changes it (00_scope.md R7). -/
  itemBits : ItemWidth
  /-- `exp`, the capacity exponent (10_state.md R20, R22). -/
  exp : BitVec 5
  /-- `rd`, read_index (10_state.md R20, R21). -/
  rd : Counter
  /-- `wr`, write_index (10_state.md R20, R21). -/
  wr : Counter
  /-- `store`, the slots written so far (10_state.md R20, R23). -/
  store : Store
  /-- The model's own: how many resets have been seen; it selects the free contents of unwritten slots (log 3). -/
  era : Nat
  /-- The model's own: the port of the command being executed, the input `port` of `Exec` (00_scope.md R12; log 5). -/
  port : Port
  /-- The model's own: the latest response and the port it went to, the output of `Exec` (00_scope.md R12; log 6). -/
  resp : Option (Port × Response)
  /-- The model's own: the producer agent (60_exceptions.md R130; log 4). -/
  producer : Agent ProducerTask
  /-- The model's own: the consumer agent (60_exceptions.md R130; log 4). -/
  consumer : Agent ConsumerTask
  /-- The model's own: the host agent, whose work is raw words (60_exceptions.md R130; log 4). -/
  host : Agent Word
  /-- The model's own: the schedule still to run (60_exceptions.md R131; log 4). -/
  turns : List Turn
  deriving DecidableEq, Repr

/-- Why the machine stops with a fault: never. Every word on every port has a response and the block has no trap
(00_scope.md R12, 60_exceptions.md R126), so there is no constructor, and that no step faults holds by type (safe). -/
inductive Fault : Type
  deriving DecidableEq, Repr

/-- Why an instruction has no meaning. -/
inductive Refusal where
  /-- Raised by an arm of `exec` whose instruction has no meaning yet, by its mnemonic; no arm raises it now. Safe: the machine
  stops where the hardware goes on. -/
  | notModelled (mnemonic : String)
  deriving DecidableEq, Repr

/-- What a step or a meaning answers. -/
abbrev Answer := Host.Outcome State Fault Refusal

/-- The machine right after reset (10_state.md R20, 70_reset_and_hazards.md R140) with the default item width
(00_scope.md R7): nothing written, nothing to do. The model's own fields start as log 3 to 6 say. -/
def State.reset : State where
  itemBits := Config.defaultItemBits
  exp := Config.defaultExp
  rd := 0#32
  wr := 0#32
  store := []
  era := 0
  port := .host
  resp := none
  producer := ⟨[], []⟩
  consumer := ⟨[], []⟩
  host := ⟨[], []⟩
  turns := []

end Sys2Proof.Machine
end

