-- ==== Sys2Proof/Machine/Operands.lean ====
section
/-! DEFINITION. Operand forms: the item of a DATA field and its width check (30_encoding.md R61, R65), the exponent check of
CONFIG (40_config.md R81), the capacity and the slot mask (00_scope.md R8), the slot of a logical index (10_state.md R24),
and the port table (30_encoding.md R62, 60_exceptions.md R130). -/

namespace Sys2Proof.Machine

/-- `v[ITEM_BITS−1:0]`, zero-extended to the 16-bit holder (30_encoding.md R61). -/
def itemOf (width : ItemWidth) (v : BitVec 16) : Item := (v.setWidth width.bits).setWidth 16

/-- An item as a response value, `zext_32(v)` (42_fetch.md R100). -/
def itemValue (v : Item) : Word := v.setWidth 32

/-- The last check of 30_encoding.md R65: `ITEM_BITS = 8 and DATA[15:8] != 0`. -/
def itemTooWide (width : ItemWidth) (data : BitVec 16) : Bool :=
  match width with
  | .w8 => data.extractLsb' 8 8 != 0x0#8
  | .w16 => false

/-- CONFIG accepts `e` when `2 ≤ e ≤ 16` (40_config.md R81). -/
def exponentOk (e : BitVec 8) : Bool := decide (Config.minExp ≤ e.toNat) && decide (e.toNat ≤ Config.maxExp)

/-- `CAP = 2^EXP` (00_scope.md R8), as a 32-bit value. -/
def capacityOf (exp : BitVec 5) : BitVec 32 := BitVec.twoPow 32 exp.toNat

/-- `MASK = CAP − 1` (00_scope.md R8). -/
def maskOf (exp : BitVec 5) : BitVec 32 := capacityOf exp - 1#32

/-- The physical slot `i & MASK` of logical index `i` (10_state.md R24), a 16-bit slot number (20_memory.md R40; log 10). -/
def slotOf (exp : BitVec 5) (i : Counter) : BitVec 16 := (i &&& maskOf exp).setWidth 16

/-- The port table of 30_encoding.md R62. -/
def mayIssue : Instr → Port → Bool
  | .config _, .host => true
  | .config _, .producer => false
  | .config _, .consumer => false
  | .push _, .producer => true
  | .push _, .consumer => false
  | .push _, .host => false
  | .pop, .consumer => true
  | .pop, .producer => false
  | .pop, .host => false
  | .len, _ => true
  | .cap, _ => true
  | .full, _ => true
  | .free, _ => true

end Sys2Proof.Machine
end

