-- ==== Sys2Proof/Machine/Flags.lean ====
section
/-! DEFINITION. The derived conditions of 10_state.md R29: views of `rd`, `wr` and `exp`, none of them stored. -/

namespace Sys2Proof.Machine

/-- `wr −32 rd`, the number of items held (10_state.md R25, 43_status.md R110). -/
def occupancy (s : State) : BitVec 32 := s.wr - s.rd

/-- CAP in the current state (00_scope.md R8). -/
def capacity (s : State) : BitVec 32 := capacityOf s.exp

/-- `empty`: the occupancy is 0 (10_state.md R29). -/
def isEmpty (s : State) : Bool := occupancy s == 0#32

/-- `full`: the occupancy equals CAP (10_state.md R29). -/
def isFull (s : State) : Bool := occupancy s == capacity s

/-- `free`: the occupancy is below CAP (10_state.md R29). -/
def hasFree (s : State) : Bool := decide (occupancy s < capacity s)

/-- A condition as a response value, `(c) ? 1 : 0` (43_status.md R112, R113). -/
def flagValue (c : Bool) : Word := if c then 1#32 else 0#32

end Sys2Proof.Machine
end

