-- ==== Sys2Proof/Machine/Ops.lean ====
section
/-! DEFINITION. The shared operations: the response and the two errors (00_scope.md R11, 60_exceptions.md R120, R121), the port
check (30_encoding.md R65), the store (00_scope.md R11), the counter advances (10_state.md R21), and the reset of the block
(70_reset_and_hazards.md R140). The block takes no exception and returns from none: an error is a response that writes no state
(60_exceptions.md R126), and `raise` is the one operation that gives it. -/

namespace Sys2Proof.Machine

/-- The 2-bit code of a status (30_encoding.md R64). -/
def statusCode : Status → BitVec 2
  | .ok => 0#2
  | .invalidCapacity => 1#2
  | .illegalCommand => 2#2

/-- `respond(st, vld, val)`: end the command with that record, given to the port that issued it (00_scope.md R11,
60_exceptions.md R121). -/
def respond (st : Status) (vld : Bool) (val : Word) (s : State) : State :=
  { s with resp := some (s.port, ⟨st, vld, val⟩) }

/-- `raise …()`: answer with an error, no state written (00_scope.md R11, 60_exceptions.md R121). -/
def raise (st : Status) (s : State) : Answer := .next (respond st false 0#32 s)

/-- The port check of 30_encoding.md R65: `body` where the command may come from this port, ILLEGAL_COMMAND elsewhere. -/
def onAllowedPort (i : Instr) (s : State) (body : Answer) : Answer :=
  if mayIssue i s.port then body else raise .illegalCommand s

/-- The item listed for slot `k`, none where nothing has written the slot. -/
def storeFind (k : Nat) : Store → Option Item
  | [] => none
  | (j, v) :: rest => if k = j then some v else storeFind k rest

/-- The store with slot `k` listed as holding `v`, slot numbers kept strictly rising. -/
def storeInsert (k : Nat) (v : Item) : Store → Store
  | [] => [(k, v)]
  | (j, u) :: rest =>
    if k < j then (k, v) :: (j, u) :: rest
    else if k = j then (k, v) :: rest
    else (j, u) :: storeInsert k v rest

/-- The slot numbers rise strictly, starting at `low` or above, each below 65536, and each item fits the width. -/
def storeWfFrom (width : ItemWidth) (low : Nat) : Store → Bool
  | [] => true
  | (j, v) :: rest =>
    decide (low ≤ j) && decide (j < Config.storeSlots) && decide (itemOf width v = v) && storeWfFrom width (j + 1) rest

/-- The canonical form of the store: two stores with the same slots written and the same items are the same list. An unlisted
slot has no value of its own, so no entry can equal what an unlisted slot reads as. -/
def storeWf (width : ItemWidth) (m : Store) : Bool := storeWfFrom width 0 m

/-- `StoreRead(slot)`: the ITEM_BITS-bit item in a physical slot (00_scope.md R11). A slot that nothing has written holds a
free value (10_state.md R28; log 3). -/
def storeRead (slot : BitVec 16) (s : State) : Item :=
  itemOf s.itemBits ((storeFind slot.toNat s.store).getD (Config.unwrittenSlot s.era slot.toNat))

/-- `StoreWrite(slot, v)`: set a physical slot to an item (00_scope.md R11). -/
def storeWrite (slot : BitVec 16) (v : Item) (s : State) : State :=
  { s with store := storeInsert slot.toNat (itemOf s.itemBits v) s.store }

/-- `rd <- rd +32 1` (10_state.md R21). -/
def advanceRd (s : State) : State := { s with rd := s.rd + 1#32 }

/-- `wr <- wr +32 1` (10_state.md R21). -/
def advanceWr (s : State) : State := { s with wr := s.wr + 1#32 }

/-- `exp <- e; rd <- 0; wr <- 0`, the store not written (40_config.md R81; log 12). -/
def configure (e : BitVec 8) (s : State) : State := { s with exp := e.setWidth 5, rd := 0#32, wr := 0#32 }

/-- Reset of the block: every element at its reset value (70_reset_and_hazards.md R140), the slots with fresh unspecified
contents (10_state.md R28; log 3). The agents and the schedule go on (70_reset_and_hazards.md R141, U10; log 9). -/
def resetBlock (s : State) : State :=
  { s with exp := State.reset.exp, rd := State.reset.rd, wr := State.reset.wr, store := State.reset.store, era := s.era + 1 }

/-- The state in which a command from port `p` is executed: `port` is the input of `Exec` (00_scope.md R12). -/
def withPort (p : Port) (s : State) : State := { s with port := p }

/-- The state with the schedule `ts` still to run. -/
def withTurns (ts : List Turn) (s : State) : State := { s with turns := ts }

end Sys2Proof.Machine
end

