-- ==== Sys2Proof/Machine/Agents.lean ====
section
/-! DEFINITION. The agents on the three ports (60_exceptions.md R130, R138) and the bursts they run: PUSHN, FETCH and FETCHL
(30_encoding.md R70 to R72). An agent presents the word its first piece of work asks for, takes the response, and retires a
burst as soon as it has ended (log 4, 16). The block keeps none of this (10_state.md R32). -/

namespace Sys2Proof.Machine

/-- Retire the PUSHN bursts at the head that have nothing left to push; the result is the count (30_encoding.md R70). -/
def settleProducer : List ProducerTask → List AgentResult → Agent ProducerTask
  | [], rs => ⟨[], rs⟩
  | .word w :: ts, rs => ⟨.word w :: ts, rs⟩
  | .pushN [] n :: ts, rs => settleProducer ts (rs ++ [.pushed n])
  | .pushN (v :: vs) n :: ts, rs => ⟨.pushN (v :: vs) n :: ts, rs⟩

/-- Retire the FETCH bursts at the head that have their `m` items: the loop test `c < m` of 30_encoding.md R71, where `c` is
the number of items got so far. -/
def settleConsumer : List ConsumerTask → List AgentResult → Agent ConsumerTask
  | [], rs => ⟨[], rs⟩
  | .word w :: ts, rs => ⟨.word w :: ts, rs⟩
  | .fetchL m :: ts, rs => ⟨.fetchL m :: ts, rs⟩
  | .fetch m out :: ts, rs =>
    if out.length < m.toNat then ⟨.fetch m out :: ts, rs⟩
    else settleConsumer ts (rs ++ [.fetched out.length out])

/-- The word the producer presents for its first piece of work: a raw word, or the PUSH of the burst's next item
(30_encoding.md R70). -/
def producerWord : List ProducerTask → Option Word
  | [] => none
  | .word w :: _ => some w
  | .pushN [] _ :: _ => none
  | .pushN (v :: _) _ :: _ => some (encode (.push v))

/-- The word the consumer presents for its first piece of work: a raw word, the POP of FETCH, or the LEN of FETCHL
(30_encoding.md R71, R72). -/
def consumerWord : List ConsumerTask → Option Word
  | [] => none
  | .word w :: _ => some w
  | .fetch _ _ :: _ => some (encode .pop)
  | .fetchL _ :: _ => some (encode .len)

/-- `min(m, n)` of two counts (30_encoding.md R72). -/
def minCount (m n : Word) : Word := if m.toNat ≤ n.toNat then m else n

/-- The producer takes a response: a raw word is done, a burst goes on to its next item (30_encoding.md R70; log 15). -/
def producerTake (r : Response) (a : Agent ProducerTask) : Agent ProducerTask :=
  match a.todo with
  | [] => a
  | .word _ :: ts => settleProducer ts (a.results ++ [.reply r])
  | .pushN [] n :: ts => settleProducer (.pushN [] n :: ts) a.results
  | .pushN (_ :: vs) n :: ts => settleProducer (.pushN vs (n + 1) :: ts) a.results

/-- The consumer takes a response. FETCH: `vld = 0` ends the burst, else the item `val[ITEM_BITS−1:0]` is appended
(30_encoding.md R71). FETCHL: the answer to LEN fixes the count `min(m, val)`, and the burst goes on as the POP loop, which
stops on `vld = 0` (R72; log 15). -/
def consumerTake (width : ItemWidth) (r : Response) (a : Agent ConsumerTask) : Agent ConsumerTask :=
  match a.todo with
  | [] => a
  | .word _ :: ts => settleConsumer ts (a.results ++ [.reply r])
  | .fetch m out :: ts =>
    if r.vld then settleConsumer (.fetch m (out ++ [itemOf width (r.val.setWidth 16)]) :: ts) a.results
    else settleConsumer ts (a.results ++ [.fetched out.length out])
  | .fetchL m :: ts => settleConsumer (.fetch (minCount m r.val) [] :: ts) a.results

/-- The host takes a response: its work is raw words only (60_exceptions.md R138). -/
def hostTake (r : Response) (a : Agent Word) : Agent Word :=
  match a.todo with
  | [] => a
  | _ :: ts => ⟨ts, a.results ++ [.reply r]⟩

/-- The agent of port `p` retires the bursts at its head that issue nothing any more. -/
def settle (p : Port) (s : State) : State :=
  match p with
  | .producer => { s with producer := settleProducer s.producer.todo s.producer.results }
  | .consumer => { s with consumer := settleConsumer s.consumer.todo s.consumer.results }
  | .host => s

/-- The word the agent of port `p` presents, none where it has nothing to present (60_exceptions.md R138). -/
def presented (p : Port) (s : State) : Option Word :=
  match p with
  | .producer => producerWord s.producer.todo
  | .consumer => consumerWord s.consumer.todo
  | .host => s.host.todo.head?

/-- The agent of port `p`, and no other, takes the response `r` (60_exceptions.md R121). -/
def deliver (p : Port) (r : Response) (s : State) : State :=
  match p with
  | .producer => { s with producer := producerTake r s.producer }
  | .consumer => { s with consumer := consumerTake s.itemBits r s.consumer }
  | .host => { s with host := hostTake r s.host }

/-- The agent of port `p` gets the raw word `w` in front of its work. -/
def giveWord (p : Port) (w : Word) (s : State) : State :=
  match p with
  | .producer => { s with producer := ⟨.word w :: s.producer.todo, s.producer.results⟩ }
  | .consumer => { s with consumer := ⟨.word w :: s.consumer.todo, s.consumer.results⟩ }
  | .host => { s with host := ⟨w :: s.host.todo, s.host.results⟩ }

/-- A port that may issue the word's opcode (30_encoding.md R62): P for PUSH, C for POP, H for every other word (log 17). -/
def homePort (w : Word) : Port :=
  if opField w = 0x2#4 then .producer else if opField w = 0x3#4 then .consumer else .host

/-- The machine with the raw word `w` given to the agent of port `p` and that port served next: the load of one command from
outside (log 4, 17). -/
def loadCommand (p : Port) (w : Word) (s : State) : State :=
  withTurns (.port p :: s.turns) (giveWord p w s)

end Sys2Proof.Machine
end

