-- ==== Sys2Proof/Machine/Configuration.lean ====
section
/-! DEFINITION. The configuration family: CONFIG (spec/40_config.md). -/

namespace Sys2Proof.Machine

/-- CONFIG e (40_config.md R81): on port H, an exponent in 2 to 16 sets `exp` and empties the buffer; any other is
INVALID_CAPACITY and writes nothing (R82). -/
def execConfig (e : BitVec 8) (s : State) : Answer :=
  onAllowedPort (.config e) s
    (if exponentOk e then .next (respond .ok false 0#32 (configure e s)) else raise .invalidCapacity s)

end Sys2Proof.Machine
end

