-- ==== Sys2Proof/Machine/Fetch.lean ====
section
/-! DEFINITION. The fetch family: POP (spec/42_fetch.md). -/

namespace Sys2Proof.Machine

/-- The oldest item held, `StoreRead(rd & MASK)` (42_fetch.md R100). -/
def oldestItem (s : State) : Item := storeRead (slotOf s.exp s.rd) s

/-- POP (42_fetch.md R100): on port C, an empty buffer answers "no item" and changes nothing; else the oldest item is returned
and `rd` advances. -/
def execPop (s : State) : Answer :=
  onAllowedPort .pop s
    (if isEmpty s then .next (respond .ok false 0#32 s)
     else .next (respond .ok true (itemValue (oldestItem s)) (advanceRd s)))

end Sys2Proof.Machine
end

