-- ==== Sys2Proof/Machine/Push.lean ====
section
/-! DEFINITION. The push family: PUSH (spec/41_push.md). -/

namespace Sys2Proof.Machine

/-- Overwrite-oldest: on a full buffer the oldest unread item is discarded (41_push.md R90). -/
def evictIfFull (s : State) : State := if isFull s then advanceRd s else s

/-- The three writes of PUSH, in the written order of 41_push.md R90: `rd` on a full buffer, the slot, `wr`. -/
def appendItem (data : BitVec 16) (s : State) : State :=
  advanceWr (storeWrite (slotOf s.exp s.wr) (itemOf s.itemBits data) (evictIfFull s))

/-- PUSH data (41_push.md R90): on port P, an item that fits ITEM_BITS is appended; a wider one is ILLEGAL_COMMAND
(30_encoding.md R65). -/
def execPush (data : BitVec 16) (s : State) : Answer :=
  onAllowedPort (.push data) s
    (if itemTooWide s.itemBits data then raise .illegalCommand s
     else .next (respond .ok false 0#32 (appendItem data s)))

end Sys2Proof.Machine
end

