-- ==== Sys2Proof/Machine/StatusQueries.lean ====
section
/-! DEFINITION. The status family: LEN, CAP, FULL, FREE (spec/43_status.md). Each may come from any port, writes no state and
answers OK with a value. -/

namespace Sys2Proof.Machine

/-- LEN (43_status.md R110): the occupancy. -/
def execLen (s : State) : Answer :=
  onAllowedPort .len s (.next (respond .ok true (occupancy s) s))

/-- CAP (43_status.md R111): the capacity, 2^exp. -/
def execCap (s : State) : Answer :=
  onAllowedPort .cap s (.next (respond .ok true (capacity s) s))

/-- FULL (43_status.md R112): 1 when the occupancy equals CAP, else 0. -/
def execFull (s : State) : Answer :=
  onAllowedPort .full s (.next (respond .ok true (flagValue (isFull s)) s))

/-- FREE (43_status.md R113): 1 when the occupancy is below CAP, else 0. -/
def execFree (s : State) : Answer :=
  onAllowedPort .free s (.next (respond .ok true (flagValue (hasFree s)) s))

end Sys2Proof.Machine
end

