-- ==== Sys2Proof/Machine/Dispatch.lean ====
section
/-! DEFINITION. One arm per command: the `case OP of` of 30_encoding.md R65. -/

namespace Sys2Proof.Machine

def exec (i : Instr) (s : State) : Host.Outcome State Fault Refusal :=
  match i with
  | .config e => Sys2Proof.Machine.execConfig e s
  | .push data => Sys2Proof.Machine.execPush data s
  | .pop => Sys2Proof.Machine.execPop s
  | .len => Sys2Proof.Machine.execLen s
  | .cap => Sys2Proof.Machine.execCap s
  | .full => Sys2Proof.Machine.execFull s
  | .free => Sys2Proof.Machine.execFree s

end Sys2Proof.Machine
end

