-- ==== Sys2Proof/Machine/Intake.lean ====
section
/-! DEFINITION. How the block takes a command: `Exec(port, word, state)` (00_scope.md R12, 30_encoding.md R65), and one turn
of the schedule (60_exceptions.md R131, 70_reset_and_hazards.md R141). -/

namespace Sys2Proof.Machine

/-- `Exec(port, word, state)` (00_scope.md R12): decode the word, run the command as coming from port `p`; a word that is no
command is ILLEGAL_COMMAND (30_encoding.md R65, R66). -/
def issue (p : Port) (w : Word) (s : State) : Answer :=
  match decode w with
  | .ok i => exec i (withPort p s)
  | .error _ => raise .illegalCommand (withPort p s)

/-- After a command of port `p`, its agent takes the response that the command left. -/
def handBack (p : Port) : Answer → Answer
  | .next t =>
    match t.resp with
    | some (_, r) => .next (deliver p r t)
    | none => .next t
  | .fault r => .fault r
  | .refused r => .refused r

/-- Port `p` is served: its agent retires ended bursts, and where it presents a word the block executes it and answers it in the
same step (00_scope.md R12, 20_memory.md R54). A port that presents nothing leaves the block alone (60_exceptions.md R138; log 8). -/
def servePort (p : Port) (s : State) : Answer :=
  match presented p (settle p s) with
  | none => .next (settle p s)
  | some w => handBack p (issue p w (settle p s))

/-- One turn of the schedule: nothing left, and the block is passive (60_exceptions.md R136; log 7); a reset between two
commands (70_reset_and_hazards.md R141); or a port served (60_exceptions.md R131). -/
def takeTurn (s : State) : Answer :=
  match s.turns with
  | [] => .next s
  | .reset :: ts => .next (resetBlock (withTurns ts s))
  | .port p :: ts => servePort p (withTurns ts s)

end Sys2Proof.Machine
end

