-- ==== Sys2Proof/Machine/Step.lean ====
section
/-! DEFINITION. The step of the machine, and how the host places one command (Machine/Intake.lean holds what they do). -/

namespace Sys2Proof.Machine

/-- One step: one turn of the schedule (00_scope.md R12, 60_exceptions.md R131). -/
def step (s : State) : Host.Outcome State Fault Refusal := takeTurn s

/-- The state whose very next step executes the word that the host numbers `w` (log 4, 17). -/
def State.withFetchWord (s : State) (nbits w : Nat) : State :=
  loadCommand (homePort (tableWord nbits w)) (tableWord nbits w) s

end Sys2Proof.Machine
end

