-- ==== Sys2Proof/Machine/Assembler.lean ====
section
/-! DEFINITION. The assembler syntax of 30_encoding.md R69: a line `port ':' command` read from characters, and the word it
assembles to. An operand out of range is refused. Blanks and letter case: log 14. -/

namespace Sys2Proof.Machine

/-- A command as the assembler reads it, its operand a number of any size. -/
inductive AsmCommand where
  | config (e : Nat)
  | push (v : Nat)
  | pop
  | len
  | cap
  | full
  | free
  deriving DecidableEq, Repr

/-- The word of an assembler command, none where an operand is out of range (30_encoding.md R69). -/
def assemble (width : ItemWidth) : AsmCommand → Option Word
  | .config e => if e ≤ 255 then some (BitVec.ofNat 32 e <<< 8 ||| 0x1#32) else none
  | .push v => if v < 2 ^ width.bits then some (BitVec.ofNat 32 v <<< 16 ||| 0x2#32) else none
  | .pop => some 0x3#32
  | .len => some 0x4#32
  | .cap => some 0x5#32
  | .full => some 0x6#32
  | .free => some 0x7#32

/-- A letter's code with lower case read as upper case: mnemonics are case-insensitive (30_encoding.md R69). -/
def upperCode (c : Char) : Nat := if 97 ≤ c.toNat ∧ c.toNat ≤ 122 then c.toNat - 32 else c.toNat

/-- Whether a token is the mnemonic `name`, in either case. -/
def isMnemonic (name : String) (token : List Char) : Bool := token.map upperCode == name.toList.map Char.toNat

/-- The value of a digit in base 10 or 16, none where the character is no digit of that base. -/
def digitValue (base : Nat) (c : Char) : Option Nat :=
  let d := upperCode c
  if 48 ≤ d ∧ d ≤ 57 then some (d - 48)
  else if base = 16 ∧ 65 ≤ d ∧ d ≤ 70 then some (d - 55)
  else none

/-- The digits read so far, times the base, plus the next one. -/
def readDigits (base : Nat) : Nat → List Char → Option Nat
  | acc, [] => some acc
  | acc, c :: cs => (digitValue base c).bind fun d => readDigits base (acc * base + d) cs

/-- `num := decimal | '0x' hex`, at least one digit (30_encoding.md R69). -/
def readNumber : List Char → Option Nat
  | [] => none
  | '0' :: 'x' :: c :: cs => readDigits 16 0 (c :: cs)
  | c :: cs => readDigits 10 0 (c :: cs)

/-- The tokens of a text, separated by blanks: `pending` is the token being read, reversed. -/
def tokensFrom (pending : List Char) : List Char → List (List Char)
  | [] => if pending.isEmpty then [] else [pending.reverse]
  | c :: cs =>
    if c = ' ' then (if pending.isEmpty then tokensFrom [] cs else pending.reverse :: tokensFrom [] cs)
    else tokensFrom (c :: pending) cs

/-- `command := …` of 30_encoding.md R69. -/
def readCommand : List (List Char) → Option AsmCommand
  | [m] =>
    if isMnemonic "POP" m then some .pop
    else if isMnemonic "LEN" m then some .len
    else if isMnemonic "CAP" m then some .cap
    else if isMnemonic "FULL" m then some .full
    else if isMnemonic "FREE" m then some .free
    else none
  | [m, n] =>
    if isMnemonic "CONFIG" m then (readNumber n).map .config
    else if isMnemonic "PUSH" m then (readNumber n).map .push
    else none
  | _ => none

/-- `port := 'P' | 'C' | 'H'` of 30_encoding.md R69. -/
def readPort : List (List Char) → Option Port
  | [['P']] => some .producer
  | [['C']] => some .consumer
  | [['H']] => some .host
  | _ => none

/-- The characters before the first colon and those after it. -/
def splitAtColon : List Char → Option (List Char × List Char)
  | [] => none
  | c :: cs => if c = ':' then some ([], cs) else (splitAtColon cs).map fun h => (c :: h.1, h.2)

/-- `line := port ':' command` of 30_encoding.md R69. -/
def readLine (line : List Char) : Option (Port × AsmCommand) :=
  (splitAtColon line).bind fun h =>
    (readPort (tokensFrom [] h.1)).bind fun p =>
      (readCommand (tokensFrom [] h.2)).map fun c => (p, c)

/-- A line assembled: the port and the word presented on it. -/
def assembleLine (width : ItemWidth) (line : String) : Option (Port × Word) :=
  (readLine line.toList).bind fun h => (assemble width h.2).map fun w => (h.1, w)

end Sys2Proof.Machine
end

