-- ==== Sys2Proof/Safety.lean ====
section
/-! DEFINITION. The terms in which claims about RINGFIFO are made: the items a state holds (10_state.md R26), the invariant of
every reachable state (R25, R26, R28), the bounded queue that the block is to its agents (R27, 41_push.md R93), runs of a schedule
of commands (20_memory.md R48), what enters and what leaves along a run (10_state.md R27), and what agents can see (R28). -/

namespace Sys2Proof.Machine

/-! ### The window -/

/-- The slot of the `k`-th item held, oldest first: `(rd +32 k) & MASK` (10_state.md R26). -/
def slotAt (s : State) (k : Nat) : BitVec 16 := slotOf s.exp (s.rd + BitVec.ofNat 32 k)

/-- The items held, oldest first (10_state.md R26). -/
def contents (s : State) : List Item :=
  (List.range (occupancy s).toNat).map fun k => storeRead (slotAt s k) s

/-- What holds of every state the block can reach. -/
structure BlockInv (s : State) : Prop where
  /-- `exp` only ever holds 2 to 16 (10_state.md R22). -/
  expLegal : 2 ≤ s.exp.toNat ∧ s.exp.toNat ≤ 16
  /-- The occupancy lies in [0, CAP] (10_state.md R25). -/
  occupancyLe : (occupancy s).toNat ≤ 2 ^ s.exp.toNat
  /-- The store is in canonical form, each item of ITEM_BITS bits (10_state.md R20, R23). -/
  storeCanonical : storeWf s.itemBits s.store = true
  /-- Every slot of the window has been written (10_state.md R26, R28). -/
  windowWritten : ∀ k, k < (occupancy s).toNat → (storeFind (slotAt s k).toNat s.store).isSome = true

/-! ### The bounded queue -/

/-- The block as its agents see it: the capacity exponent and the items held, oldest first (10_state.md R25, R26, R30). -/
structure Queue where
  exp : BitVec 5
  items : List Item
  deriving DecidableEq, Repr

/-- The queue that a state stands for. -/
def queueOf (s : State) : Queue := ⟨s.exp, contents s⟩

/-- The last `n` elements of a list, all of it when it is shorter: what overwrite-oldest keeps (41_push.md R93). -/
def keepNewest (n : Nat) (l : List Item) : List Item := l.drop (l.length - n)

/-- The response OK with a value (30_encoding.md R64). -/
def okValue (v : Word) : Response := ⟨.ok, true, v⟩

/-- The response OK without a value (30_encoding.md R64). -/
def okNothing : Response := ⟨.ok, false, 0#32⟩

/-- The response of an error (30_encoding.md R64, 60_exceptions.md R120). -/
def errorResponse (st : Status) : Response := ⟨st, false, 0#32⟩

/-- What one command of an allowed port does to the queue (40_config.md R81, 41_push.md R90, 42_fetch.md R100, 43_status.md R110
to R113), in terms of the items alone: no counter and no slot. -/
def queueCommand (width : ItemWidth) (i : Instr) (q : Queue) : Response × Queue :=
  match i with
  | .config e =>
    if 2 ≤ e.toNat ∧ e.toNat ≤ 16 then (okNothing, ⟨e.setWidth 5, []⟩) else (errorResponse .invalidCapacity, q)
  | .push d =>
    if 2 ^ width.bits ≤ d.toNat then (errorResponse .illegalCommand, q)
    else (okNothing, ⟨q.exp, keepNewest (2 ^ q.exp.toNat) (q.items ++ [d])⟩)
  | .pop =>
    match q.items with
    | [] => (okNothing, q)
    | v :: vs => (okValue (v.setWidth 32), ⟨q.exp, vs⟩)
  | .len => (okValue (BitVec.ofNat 32 q.items.length), q)
  | .cap => (okValue (BitVec.ofNat 32 (2 ^ q.exp.toNat)), q)
  | .full => (okValue (if q.items.length = 2 ^ q.exp.toNat then 1#32 else 0#32), q)
  | .free => (okValue (if q.items.length < 2 ^ q.exp.toNat then 1#32 else 0#32), q)

/-- What any word on any port does to the queue (30_encoding.md R65). -/
def queueExec (width : ItemWidth) (p : Port) (w : Word) (q : Queue) : Response × Queue :=
  match decode w with
  | .error _ => (errorResponse .illegalCommand, q)
  | .ok i => if mayIssue i p then queueCommand width i q else (errorResponse .illegalCommand, q)

/-- A schedule of commands run on the queue: the responses and the queue at the end. -/
def queueRun (width : ItemWidth) : List (Port × Word) → Queue → List Response × Queue
  | [], q => ([], q)
  | (p, w) :: cs, q =>
    let a := queueExec width p w q
    let b := queueRun width cs a.2
    (a.1 :: b.1, b.2)

/-! ### Runs of a schedule of commands -/

/-- The commands of a schedule taken one after another, each by `issue` (20_memory.md R48): the responses in order and the state
at the end; none where a command answers no next state or leaves no response. -/
def runCommands : List (Port × Word) → State → Option (List Response × State)
  | [], s => some ([], s)
  | (p, w) :: cs, s =>
    match issue p w s with
    | .next t =>
      match t.resp with
      | some (_, r) => (runCommands cs t).map fun h => (r :: h.1, h.2)
      | none => none
    | .fault _ => none
    | .refused _ => none

/-- An accepted CONFIG: port H, exponent in 2 to 16 (40_config.md R81). -/
def configures (p : Port) (w : Word) : Bool :=
  match decode w with
  | .ok (.config e) => p == .host && exponentOk e
  | _ => false

/-- The item that a command adds to the buffer, if it does (41_push.md R90). -/
def arrival (width : ItemWidth) (p : Port) (w : Word) : List Item :=
  match decode w with
  | .ok (.push d) => if p == .producer && !itemTooWide width d then [itemOf width d] else []
  | _ => []

/-- The items that a schedule adds to the buffer, in push order. -/
def arrivals (width : ItemWidth) (cs : List (Port × Word)) : List Item :=
  cs.flatMap fun c => arrival width c.1 c.2

/-- How an item leaves the buffer (10_state.md R27). -/
inductive Fate where
  | popped
  | evicted
  deriving DecidableEq, Repr

/-- The item that leaves when a command is executed, and how: a POP of a buffer that holds one, or the eviction by a PUSH into a
full buffer (10_state.md R27, 41_push.md R90, 42_fetch.md R100). -/
def departure (p : Port) (w : Word) (s : State) : List (Item × Fate) :=
  match decode w with
  | .ok (.push d) =>
    if p == .producer && !itemTooWide s.itemBits d && isFull s then [(oldestItem s, .evicted)] else []
  | .ok .pop => if p == .consumer && !isEmpty s then [(oldestItem s, .popped)] else []
  | _ => []

/-- The items that leave along a schedule, in order. -/
def departures : List (Port × Word) → State → List (Item × Fate)
  | [], _ => []
  | (p, w) :: cs, s =>
    match issue p w s with
    | .next t => departure p w s ++ departures cs t
    | .fault _ => []
    | .refused _ => []

/-- The values that the valid POPs of a schedule answer (10_state.md R27): POP is the word 0x3 on port C. -/
def poppedValues (cs : List (Port × Word)) (rs : List Response) : List Word :=
  (cs.zip rs).filterMap fun h =>
    if h.1.1 == .consumer && h.1.2 == 0x3#32 && h.2.vld then some h.2.val else none

/-! ### Schedules as runs of the step -/

/-- The words of a schedule that port `p` presents, in order. -/
def wordsOf (p : Port) (cs : List (Port × Word)) : List Word :=
  (cs.filter fun c => c.1 == p).map fun c => c.2

/-- The responses of a schedule that go to port `p`, in order, as the results of raw words. -/
def repliesOf (p : Port) (cs : List (Port × Word)) (rs : List Response) : List AgentResult :=
  ((cs.zip rs).filter fun h => h.1.1 == p).map fun h => .reply h.2

/-- The machine loaded with a schedule: each agent has its own port's words to present, in its issue order, and the turns name
the ports in the schedule's order (60_exceptions.md R131, 20_memory.md R54). -/
def loadSchedule (cs : List (Port × Word)) (s : State) : State :=
  { s with
    producer := ⟨(wordsOf .producer cs).map ProducerTask.word, s.producer.results⟩
    consumer := ⟨(wordsOf .consumer cs).map ConsumerTask.word, s.consumer.results⟩
    host := ⟨wordsOf .host cs, s.host.results⟩
    turns := (cs.map fun c => Turn.port c.1) ++ s.turns }

/-- How many turns of port C a FETCH of `m` items takes on a buffer that holds `n`: the POPs it issues, the last one answered
"no item" where it stops early; one turn for `FETCH 0`, which issues nothing (30_encoding.md R71). -/
def fetchTurns (m n : Nat) : Nat := if m = 0 then 1 else if m ≤ n then m else n + 1

/-! ### What agents can see -/

/-- Two states that differ at most in slots outside the window and in what unwritten slots hold (10_state.md R28). -/
structure SameView (s t : State) : Prop where
  rest : { s with store := t.store, era := t.era } = t
  window : ∀ k, k < (occupancy s).toNat → storeRead (slotAt s k) s = storeRead (slotAt t k) t

/-- Both counters moved on by `d` (70_reset_and_hazards.md R148). -/
def shiftCounters (d : Counter) (s : State) : State := { s with rd := s.rd + d, wr := s.wr + d }

end Sys2Proof.Machine
end

