-- ==== Sys2Proof/WellFormed.lean ====
section
/-! DEFINITION. Which commands are well formed on an instance of a given item width. The one operand check the spec makes
that the operand's width does not already settle is PUSH's: the item is below 2^ITEM_BITS (30_encoding.md R61, R65, R69).
CONFIG's exponent may be any 8-bit number: the values outside 2 to 16 are commands too, answered INVALID_CAPACITY
(40_config.md R81). -/

namespace Sys2Proof

/-- The operand check of 30_encoding.md R69: `PUSH v` needs `v < 2^ITEM_BITS`. -/
def Instr.wellFormed (width : ItemWidth) : Instr → Bool
  | .config _ => true
  | .push data => decide (data.toNat < 2 ^ width.bits)
  | .pop => true
  | .len => true
  | .cap => true
  | .full => true
  | .free => true

end Sys2Proof
end

