-- ==== Sys2Proof/Certificates/Slice0/Obligations.lean ====
section
/-! DEFINITION. The statements about RINGFIFO for the provers: `def Obligations.<Name> : Prop`, listed in OBLIGATIONS.json.
A state is any value of `State` unless a premise says otherwise; `BlockInv` is the invariant of the reachable states, itself stated to hold
at reset and to be kept by every step. -/

open Sys2Proof Sys2Proof.Machine

/-! ### The commands, one rule each -/

/-- CONFIG (40_config.md R81): encoding; on port H an exponent in 2 to 16 sets `exp` and both counters; any other is
INVALID_CAPACITY and writes nothing; a failed check of 30_encoding.md R65 comes first; the flags after it. -/
def Obligations.ConfigCommandRule : Prop :=
  (∀ (w : Word) (e : BitVec 8),
    decode w = .ok (.config e) ↔ w &&& 0xFFFF00FF#32 = 0x00000001#32 ∧ e = w.extractLsb' 8 8) ∧
  (∀ (e : BitVec 8) (s : State), s.port = .host → 2 ≤ e.toNat → e.toNat ≤ 16 →
    exec (.config e) s =
      .next { s with exp := e.setWidth 5, rd := 0#32, wr := 0#32, resp := some (.host, ⟨.ok, false, 0#32⟩) }) ∧
  (∀ (e : BitVec 8) (s : State), s.port = .host → (e.toNat < 2 ∨ 16 < e.toNat) →
    exec (.config e) s = .next { s with resp := some (.host, ⟨.invalidCapacity, false, 0#32⟩) }) ∧
  (∀ (e : BitVec 8) (s : State), s.port ≠ .host →
    exec (.config e) s = .next { s with resp := some (s.port, ⟨.illegalCommand, false, 0#32⟩) }) ∧
  (∀ (p : Port) (w : Word) (s : State), w.extractLsb' 0 4 = 0x1#4 →
    (w.extractLsb' 4 4 ≠ 0x0#4 ∨ w.extractLsb' 16 16 ≠ 0x0#16 ∨ p ≠ .host) →
    issue p w s = .next { s with port := p, resp := some (p, ⟨.illegalCommand, false, 0#32⟩) }) ∧
  (∀ (e : BitVec 8) (s : State), s.port = .host → 2 ≤ e.toNat → e.toNat ≤ 16 →
    ∃ t, exec (.config e) s = .next t ∧ t.exp.toNat = e.toNat ∧
      isEmpty t = true ∧ isFull t = false ∧ hasFree t = true)

/-- PUSH (41_push.md R90): encoding; the item appended with and without an eviction; the refused forms; the flags and the occupancy
after it; the slot of the evicted item; the slot at the counter wrap. -/
def Obligations.PushCommandRule : Prop :=
  (∀ (w : Word) (d : BitVec 16),
    decode w = .ok (.push d) ↔ w &&& 0x0000FFFF#32 = 0x00000002#32 ∧ d = w.extractLsb' 16 16) ∧
  (∀ (d : BitVec 16) (s : State), s.port = .producer → d.toNat < 2 ^ s.itemBits.bits →
    (s.wr - s.rd).toNat ≠ 2 ^ s.exp.toNat →
    exec (.push d) s =
      .next { storeWrite (slotOf s.exp s.wr) d s with
        wr := s.wr + 1#32, resp := some (.producer, ⟨.ok, false, 0#32⟩) }) ∧
  (∀ (d : BitVec 16) (s : State), s.port = .producer → d.toNat < 2 ^ s.itemBits.bits →
    (s.wr - s.rd).toNat = 2 ^ s.exp.toNat →
    exec (.push d) s =
      .next { storeWrite (slotOf s.exp s.wr) d s with
        rd := s.rd + 1#32, wr := s.wr + 1#32, resp := some (.producer, ⟨.ok, false, 0#32⟩) }) ∧
  (∀ (d : BitVec 16) (s : State), (s.port ≠ .producer ∨ 2 ^ s.itemBits.bits ≤ d.toNat) →
    exec (.push d) s = .next { s with resp := some (s.port, ⟨.illegalCommand, false, 0#32⟩) }) ∧
  (∀ (p : Port) (w : Word) (s : State), w.extractLsb' 0 4 = 0x2#4 →
    (w.extractLsb' 4 4 ≠ 0x0#4 ∨ w.extractLsb' 8 8 ≠ 0x0#8 ∨ p ≠ .producer ∨
      (s.itemBits = .w8 ∧ w.extractLsb' 24 8 ≠ 0x0#8)) →
    issue p w s = .next { s with port := p, resp := some (p, ⟨.illegalCommand, false, 0#32⟩) }) ∧
  (∀ (d : BitVec 16) (s : State), BlockInv s → s.port = .producer → d.toNat < 2 ^ s.itemBits.bits →
    ∃ t, exec (.push d) s = .next t ∧
      (t.wr - t.rd).toNat = min ((s.wr - s.rd).toNat + 1) (2 ^ s.exp.toNat) ∧ isEmpty t = false ∧
      (isFull t = true ↔ 2 ^ s.exp.toNat - 1 ≤ (s.wr - s.rd).toNat) ∧
      (hasFree t = true ↔ (s.wr - s.rd).toNat < 2 ^ s.exp.toNat - 1)) ∧
  (∀ s : State, (s.wr - s.rd).toNat = 2 ^ s.exp.toNat → slotOf s.exp s.wr = slotOf s.exp s.rd) ∧
  (∀ s : State, s.exp.toNat ≤ 16 → s.wr = 0xFFFFFFFF#32 →
    s.wr + 1#32 = 0#32 ∧ (slotOf s.exp s.wr).toNat = 2 ^ s.exp.toNat - 1)

/-- POP (42_fetch.md R100): encoding; the oldest item returned, zero-extended, and `rd` advanced; "no item" on an empty buffer;
the refused forms; the flags and the occupancy after it; the slot at the counter wrap. -/
def Obligations.PopCommandRule : Prop :=
  (∀ w : Word, decode w = .ok .pop ↔ w = 0x00000003#32) ∧
  (∀ s : State, s.port = .consumer → s.wr - s.rd = 0#32 →
    exec .pop s = .next { s with resp := some (.consumer, ⟨.ok, false, 0#32⟩) }) ∧
  (∀ s : State, s.port = .consumer → s.wr - s.rd ≠ 0#32 →
    exec .pop s = .next { s with
      rd := s.rd + 1#32, resp := some (.consumer, ⟨.ok, true, (storeRead (slotOf s.exp s.rd) s).setWidth 32⟩) }) ∧
  (∀ s : State, s.port ≠ .consumer →
    exec .pop s = .next { s with resp := some (s.port, ⟨.illegalCommand, false, 0#32⟩) }) ∧
  (∀ (p : Port) (w : Word) (s : State), w.extractLsb' 0 4 = 0x3#4 → (w ≠ 0x00000003#32 ∨ p ≠ .consumer) →
    issue p w s = .next { s with port := p, resp := some (p, ⟨.illegalCommand, false, 0#32⟩) }) ∧
  (∀ s : State, BlockInv s → s.port = .consumer → 1 ≤ (s.wr - s.rd).toNat →
    ∃ t, exec .pop s = .next t ∧ (t.wr - t.rd).toNat = (s.wr - s.rd).toNat - 1 ∧ isFull t = false ∧
      hasFree t = true ∧ (isEmpty t = true ↔ (s.wr - s.rd).toNat = 1)) ∧
  (∀ (s : State) (a : BitVec 16), (storeRead a s).toNat < 2 ^ s.itemBits.bits) ∧
  (∀ s : State, s.exp.toNat ≤ 16 → s.rd = 0xFFFFFFFF#32 →
    s.rd + 1#32 = 0#32 ∧ (slotOf s.exp s.rd).toNat = 2 ^ s.exp.toNat - 1)

/-- LEN (43_status.md R110): encoding, the occupancy modulo 2^32 on any port, nothing else written, and its bound. -/
def Obligations.LenCommandRule : Prop :=
  (∀ w : Word, decode w = .ok .len ↔ w = 0x00000004#32) ∧
  (∀ s : State, exec .len s = .next { s with resp := some (s.port, ⟨.ok, true, s.wr - s.rd⟩) }) ∧
  (∀ (p : Port) (w : Word) (s : State), w.extractLsb' 0 4 = 0x4#4 → w ≠ 0x00000004#32 →
    issue p w s = .next { s with port := p, resp := some (p, ⟨.illegalCommand, false, 0#32⟩) }) ∧
  (∀ s : State, BlockInv s → (s.wr - s.rd).toNat ≤ 2 ^ s.exp.toNat ∧ 2 ^ s.exp.toNat ≤ 65536) ∧
  (∀ (d : BitVec 16) (s : State), BlockInv s → s.port = .producer → d.toNat < 2 ^ s.itemBits.bits →
    (s.wr - s.rd).toNat = 2 ^ s.exp.toNat →
    ∃ t, exec (.push d) s = .next t ∧ (t.wr - t.rd).toNat = 2 ^ s.exp.toNat)

/-- CAP (43_status.md R111): encoding, 2^exp on any port, nothing else written; 65536 after reset, the old capacity after a
rejected CONFIG. -/
def Obligations.CapCommandRule : Prop :=
  (∀ w : Word, decode w = .ok .cap ↔ w = 0x00000005#32) ∧
  (∀ s : State,
    exec .cap s = .next { s with resp := some (s.port, ⟨.ok, true, BitVec.ofNat 32 (2 ^ s.exp.toNat)⟩) }) ∧
  (∀ (p : Port) (w : Word) (s : State), w.extractLsb' 0 4 = 0x5#4 → w ≠ 0x00000005#32 →
    issue p w s = .next { s with port := p, resp := some (p, ⟨.illegalCommand, false, 0#32⟩) }) ∧
  2 ^ State.reset.exp.toNat = 65536 ∧
  (∀ (e : BitVec 8) (s : State), s.port = .host → (e.toNat < 2 ∨ 16 < e.toNat) →
    ∃ t u, exec (.config e) s = .next t ∧ exec .cap t = .next u ∧
      u.resp = some (.host, ⟨.ok, true, BitVec.ofNat 32 (2 ^ s.exp.toNat)⟩))

/-- FULL (43_status.md R112): encoding, 1 exactly when the occupancy equals CAP, on any port, nothing else written; still 1 after an
evicting PUSH. -/
def Obligations.FullCommandRule : Prop :=
  (∀ w : Word, decode w = .ok .full ↔ w = 0x00000006#32) ∧
  (∀ s : State,
    exec .full s = .next { s with
      resp := some (s.port, ⟨.ok, true, if (s.wr - s.rd).toNat = 2 ^ s.exp.toNat then 1#32 else 0#32⟩) }) ∧
  (∀ (p : Port) (w : Word) (s : State), w.extractLsb' 0 4 = 0x6#4 → w ≠ 0x00000006#32 →
    issue p w s = .next { s with port := p, resp := some (p, ⟨.illegalCommand, false, 0#32⟩) }) ∧
  (∀ s : State, BlockInv s → (s.wr - s.rd = 0#32 → isFull s = false) ∧
    ((s.wr - s.rd).toNat = 2 ^ s.exp.toNat - 1 → isFull s = false) ∧
    (isFull s = true ↔ 2 ^ s.exp.toNat ≤ (s.wr - s.rd).toNat)) ∧
  (∀ (d : BitVec 16) (s : State), BlockInv s → s.port = .producer → d.toNat < 2 ^ s.itemBits.bits → isFull s = true →
    ∃ t, exec (.push d) s = .next t ∧ isFull t = true ∧ BlockInv t)

/-- FREE (43_status.md R113): encoding, 1 exactly when the occupancy is below CAP, on any port, nothing else written; always
1 − FULL. -/
def Obligations.FreeCommandRule : Prop :=
  (∀ w : Word, decode w = .ok .free ↔ w = 0x00000007#32) ∧
  (∀ s : State,
    exec .free s = .next { s with
      resp := some (s.port, ⟨.ok, true, if (s.wr - s.rd).toNat < 2 ^ s.exp.toNat then 1#32 else 0#32⟩) }) ∧
  (∀ (p : Port) (w : Word) (s : State), w.extractLsb' 0 4 = 0x7#4 → w ≠ 0x00000007#32 →
    issue p w s = .next { s with port := p, resp := some (p, ⟨.illegalCommand, false, 0#32⟩) }) ∧
  (∀ s : State, BlockInv s → (s.wr - s.rd = 0#32 → hasFree s = true) ∧
    ((s.wr - s.rd).toNat = 2 ^ s.exp.toNat - 1 → hasFree s = true) ∧
    ((s.wr - s.rd).toNat = 2 ^ s.exp.toNat → hasFree s = false) ∧
    ∃ t u a b, exec .full s = .next t ∧ exec .free s = .next u ∧ t.resp = some (s.port, okValue a) ∧
      u.resp = some (s.port, okValue b) ∧ b = 1#32 - a)

/-! ### Words, ports and errors -/

/-- The match and mask table (30_encoding.md R63): the rows are disjoint, a word is a command exactly when a row selects it, and it
is that row's command; a PUSH word whose item is too wide matches its row and is refused. -/
def Obligations.MatchMaskTableSelectsCommand : Prop :=
  opcodeRows =
    [⟨"CONFIG", 0x00000001#32, 0xFFFF00FF#32⟩, ⟨"PUSH", 0x00000002#32, 0x0000FFFF#32⟩, ⟨"POP", 0x00000003#32, 0xFFFFFFFF#32⟩,
     ⟨"LEN", 0x00000004#32, 0xFFFFFFFF#32⟩, ⟨"CAP", 0x00000005#32, 0xFFFFFFFF#32⟩, ⟨"FULL", 0x00000006#32, 0xFFFFFFFF#32⟩,
     ⟨"FREE", 0x00000007#32, 0xFFFFFFFF#32⟩] ∧
  (∀ (w : Word) (r q : OpcodeRow), r ∈ opcodeRows → q ∈ opcodeRows → w &&& r.mask = r.matchBits →
    w &&& q.mask = q.matchBits → r = q) ∧
  (∀ w : Word, (∃ i, decode w = .ok i) ↔ ∃ r ∈ opcodeRows, w &&& r.mask = r.matchBits) ∧
  (∀ (w : Word) (i : Instr), decode w = .ok i →
    ∃ r ∈ opcodeRows, w &&& r.mask = r.matchBits ∧ r.mnemonic = mnemonicOf i) ∧
  (∀ (w : Word) (s : State), w &&& 0x0000FFFF#32 = 0x00000002#32 → s.itemBits = .w8 → w.extractLsb' 24 8 ≠ 0x0#8 →
    issue .producer w s =
      .next { s with port := .producer, resp := some (.producer, ⟨.illegalCommand, false, 0#32⟩) })

/-- Decode and the checks before execution, in their order (30_encoding.md R65): `issue` is that pseudocode. -/
def Obligations.CommandChecksInOrder : Prop :=
  ∀ (p : Port) (w : Word) (s : State),
    let op := w.extractLsb' 0 4
    let rsv := w.extractLsb' 4 4
    let arg := w.extractLsb' 8 8
    let data := w.extractLsb' 16 16
    let s' : State := { s with port := p }
    let illegal : Answer := .next { s with port := p, resp := some (p, ⟨.illegalCommand, false, 0#32⟩) }
    issue p w s =
      if op = 0x0#4 ∨ 0x8#4 ≤ op then illegal
      else if rsv ≠ 0x0#4 then illegal
      else if op ≠ 0x1#4 ∧ arg ≠ 0x0#8 then illegal
      else if op ≠ 0x2#4 ∧ data ≠ 0x0#16 then illegal
      else if (op = 0x1#4 ∧ p ≠ .host) ∨ (op = 0x2#4 ∧ p ≠ .producer) ∨ (op = 0x3#4 ∧ p ≠ .consumer) then illegal
      else if op = 0x2#4 ∧ s.itemBits = .w8 ∧ data.extractLsb' 8 8 ≠ 0x0#8 then illegal
      else if op = 0x1#4 then exec (.config arg) s'
      else if op = 0x2#4 then exec (.push data) s'
      else if op = 0x3#4 then exec .pop s'
      else if op = 0x4#4 then exec .len s'
      else if op = 0x5#4 then exec .cap s'
      else if op = 0x6#4 then exec .full s'
      else exec .free s'

/-- Reserved encodings (30_encoding.md R66): a reserved opcode or a nonzero reserved or must-be-zero field is ILLEGAL_COMMAND on
every port with no state change, and every other word is a command of the table, so there is no hint and no custom space. -/
def Obligations.ReservedEncodingsAnswerIllegal : Prop :=
  (∀ w : Word, (∃ i, decode w = .ok i) ↔
    ¬ (w.extractLsb' 0 4 = 0x0#4 ∨ 0x8#4 ≤ w.extractLsb' 0 4 ∨ w.extractLsb' 4 4 ≠ 0x0#4 ∨
      (w.extractLsb' 0 4 ≠ 0x1#4 ∧ w.extractLsb' 8 8 ≠ 0x0#8) ∨ (w.extractLsb' 0 4 ≠ 0x2#4 ∧ w.extractLsb' 16 16 ≠ 0x0#16))) ∧
  (∀ (p : Port) (w : Word) (s : State), (¬ ∃ i, decode w = .ok i) →
    issue p w s = .next { s with port := p, resp := some (p, ⟨.illegalCommand, false, 0#32⟩) }) ∧
  (¬ ∃ i, decode 0#32 = .ok i)

/-- The port table (30_encoding.md R62, 60_exceptions.md R130): each command has its opcode, and every command from a port that may
not issue it is refused with no state change; from a port that may, only a too wide item is. -/
def Obligations.PortTableEnforced : Prop :=
  (∀ (e : BitVec 8), (encode (.config e)).extractLsb' 0 4 = 0x1#4) ∧
  (∀ (d : BitVec 16), (encode (.push d)).extractLsb' 0 4 = 0x2#4) ∧
  [Instr.pop, .len, .cap, .full, .free].map (fun i => (encode i).extractLsb' 0 4) = [0x3#4, 0x4#4, 0x5#4, 0x6#4, 0x7#4] ∧
  (∀ (i : Instr) (s : State),
    (s.port ≠ .host ∧ (∃ e, i = .config e)) ∨ (s.port ≠ .producer ∧ (∃ d, i = .push d)) ∨
      (s.port ≠ .consumer ∧ i = .pop) →
    exec i s = .next { s with resp := some (s.port, ⟨.illegalCommand, false, 0#32⟩) }) ∧
  (∀ (i : Instr) (s : State), i.wellFormed s.itemBits = true →
    (s.port = .host ∧ (∃ e, i = .config e)) ∨ (s.port = .producer ∧ (∃ d, i = .push d)) ∨
      (s.port = .consumer ∧ i = .pop) ∨ i = .len ∨ i = .cap ∨ i = .full ∨ i = .free →
    ∃ t r, exec i s = .next t ∧ t.resp = some (s.port, r) ∧ r.st ≠ .illegalCommand)

/-- Every word on every port is answered, to that port, with a record of the shape of 30_encoding.md R64; the operation is total
(00_scope.md R12) and status code 3 is never returned (U5). -/
def Obligations.EveryWordIsAnswered : Prop :=
  ∀ (p : Port) (w : Word) (s : State), ∃ t r, issue p w s = .next t ∧ t.resp = some (p, r) ∧ t.port = p ∧
    (r.vld = false → r.val = 0#32) ∧ (r.st ≠ .ok → r.vld = false) ∧ statusCode r.st ≠ 3#2 ∧
    (r.vld = true → ∃ i, decode w = .ok i ∧ (i = .pop ∨ i = .len ∨ i = .cap ∨ i = .full ∨ i = .free)) ∧
    (∀ i, decode w = .ok i → i = .len ∨ i = .cap ∨ i = .full ∨ i = .free → r.st = .ok ∧ r.vld = true)

/-- The two error conditions and their causes (60_exceptions.md R120): code 1 exactly for a CONFIG on port H with an exponent
outside 2 to 16, code 2 exactly where a check of 30_encoding.md R65 fails; no error records anything. -/
def Obligations.ErrorCodesAndCauses : Prop :=
  ∀ (p : Port) (w : Word) (s : State), ∃ t r, issue p w s = .next t ∧ t.resp = some (p, r) ∧
    (statusCode r.st = 1#2 ↔ p = .host ∧ ∃ e, decode w = .ok (.config e) ∧ (e.toNat < 2 ∨ 16 < e.toNat)) ∧
    (statusCode r.st = 2#2 ↔
      (¬ ∃ i, decode w = .ok i) ∨ (p ≠ .host ∧ ∃ e, decode w = .ok (.config e)) ∨
      (∃ d, decode w = .ok (.push d) ∧ (p ≠ .producer ∨ 2 ^ s.itemBits.bits ≤ d.toNat)) ∨
      (p ≠ .consumer ∧ decode w = .ok .pop)) ∧
    (statusCode r.st ≠ 0#2 →
      t = { s with port := p, resp := some (p, ⟨r.st, false, 0#32⟩) }) ∧
    statusCode .ok = 0#2

/-- A command answered with an error writes no state, its error goes to its own port only, and no later command can tell that it
was there (60_exceptions.md R121). -/
def Obligations.ErrorWritesNoState : Prop :=
  ∀ (p : Port) (w : Word) (s : State), ∃ t r, issue p w s = .next t ∧ t.resp = some (p, r) ∧
    (r.st ≠ .ok → t = { s with port := p, resp := some (p, r) } ∧
      ∀ (p' : Port) (w' : Word), issue p' w' t = issue p' w' s)

/-- Overrun and underrun are not errors (60_exceptions.md R123). -/
def Obligations.OverrunAndUnderrunSucceed : Prop :=
  (∀ (d : BitVec 16) (s : State), s.port = .producer → d.toNat < 2 ^ s.itemBits.bits → isFull s = true →
    ∃ t, exec (.push d) s = .next t ∧ t.resp = some (.producer, ⟨.ok, false, 0#32⟩) ∧ t.rd = s.rd + 1#32 ∧ t.wr = s.wr + 1#32) ∧
  (∀ s : State, s.port = .consumer → isEmpty s = true →
    exec .pop s = .next { s with resp := some (.consumer, ⟨.ok, false, 0#32⟩) })

/-- A rejected CONFIG writes no state: the buffer goes on holding its items under its old capacity (40_config.md R82). -/
def Obligations.RejectedConfigKeepsItems : Prop :=
  ∀ (e : BitVec 8) (s : State), s.port = .host → (e.toNat < 2 ∨ 16 < e.toNat) →
    ∃ t, exec (.config e) s = .next t ∧ t.exp = s.exp ∧ t.rd = s.rd ∧ t.wr = s.wr ∧ t.store = s.store ∧
      queueOf t = queueOf s

/-- Eviction is silent (41_push.md R92): a PUSH's response does not depend on whether it evicted, and nothing but the two counters,
the slot and the response is written. -/
def Obligations.EvictionIsSilent : Prop :=
  ∀ (d : BitVec 16) (s u : State), s.port = .producer → u.port = .producer → s.itemBits = u.itemBits →
    isFull s = true → isFull u = false →
    ∃ s' u', exec (.push d) s = .next s' ∧ exec (.push d) u = .next u' ∧ s'.resp = u'.resp ∧
      s' = { s with rd := s'.rd, wr := s'.wr, store := s'.store, resp := s'.resp }

/-! ### Encoding -/

/-- Decoding the encoding of a command gives it back, for every command and every operand (30_encoding.md R60 to R63). -/
def Obligations.DecodeEncodeRoundTrip : Prop :=
  ∀ i : Instr, decode (encode i) = .ok i

/-- Each word that is a command is the encoding of that command (30_encoding.md R63, R67). -/
def Obligations.EncodeDecodeRoundTrip : Prop :=
  ∀ (w : Word) (i : Instr), decode w = .ok i → encode i = w

/-- The words that the spec writes out for one command of each family, and the fields of a word that is none (30_encoding.md R69,
95_test_vectors.md). -/
def Obligations.WrittenOutWordsDecode : Prop :=
  decode 0x00000201#32 = .ok (.config 2) ∧ decode 0x00410002#32 = .ok (.push 0x41) ∧ decode 0x00000003#32 = .ok .pop ∧
    decode 0x00000004#32 = .ok .len ∧ decode 0x00000005#32 = .ok .cap ∧ decode 0x00000006#32 = .ok .full ∧
    decode 0x00000007#32 = .ok .free ∧ decode 0x00001102#32 = .error .argNotZero ∧
    decode 0x00000009#32 = .error .reservedOpcode

/-- An assembled word is a well-formed command: on a port that may issue it, it can fail only CONFIG's exponent check; an operand
out of range is refused; the words are the spec's (30_encoding.md R69). -/
def Obligations.AssembledWordIsLegal : Prop :=
  (∀ (width : ItemWidth) (c : AsmCommand) (w : Word), assemble width c = some w →
    ∃ i, decode w = .ok i ∧ i.wellFormed width = true ∧
      ∀ (p : Port) (s : State), s.itemBits = width → mayIssue i p = true →
        ∃ t r, issue p w s = .next t ∧ t.resp = some (p, r) ∧
          (r.st = .ok ∨ (r.st = .invalidCapacity ∧ ∃ e, c = .config e ∧ (e < 2 ∨ 16 < e)))) ∧
  (∀ (width : ItemWidth) (e : Nat), e ≤ 255 → assemble width (.config e) = some (encode (.config (BitVec.ofNat 8 e)))) ∧
  (∀ (width : ItemWidth) (v : Nat), v < 2 ^ width.bits →
    assemble width (.push v) = some (encode (.push (BitVec.ofNat 16 v)))) ∧
  (∀ (width : ItemWidth) (e : Nat), 255 < e → assemble width (.config e) = none) ∧
  (∀ (width : ItemWidth) (v : Nat), 2 ^ width.bits ≤ v → assemble width (.push v) = none)

/-! ### Reset, steps and the invariant -/

/-- Reset (70_reset_and_hazards.md R140): the values of the registers, what the status commands then answer, and that whatever the
slots hold is outside what agents can see. -/
def Obligations.ResetState : Prop :=
  State.reset.exp = 16#5 ∧ State.reset.rd = 0 ∧ State.reset.wr = 0 ∧ capacity State.reset = 65536#32 ∧
    maskOf State.reset.exp = 0xFFFF#32 ∧ isEmpty State.reset = true ∧ isFull State.reset = false ∧
    hasFree State.reset = true ∧
    (∀ p : Port, ∃ t u, issue p 0x4#32 State.reset = .next t ∧ t.resp = some (p, okValue 0#32) ∧
      issue p 0x5#32 State.reset = .next u ∧ u.resp = some (p, okValue 65536#32)) ∧
    (∀ (slots : Store) (era : Nat), SameView State.reset { State.reset with store := slots, era := era })

/-- A reset event takes effect between two commands (70_reset_and_hazards.md R141): from any state, one step puts the block at its
reset values, the buffer is empty, and the agents and the rest of the schedule go on (the model's choice, log 9). -/
def Obligations.ResetEventResetsTheBlock : Prop :=
  ∀ (s : State) (us : List Turn), s.turns = .reset :: us →
    ∃ t, step s = .next t ∧ t.exp = 16#5 ∧ t.rd = 0#32 ∧ t.wr = 0#32 ∧ contents t = [] ∧ BlockInv t ∧
      t.producer = s.producer ∧ t.consumer = s.consumer ∧ t.host = s.host ∧ t.turns = us ∧ t.itemBits = s.itemBits

/-- The reset state meets the invariant. -/
def Obligations.ResetMeetsInvariant : Prop := BlockInv State.reset

/-- Every step keeps the invariant (10_state.md R22, R25, R28): the exponent stays legal, the occupancy stays in [0, CAP], the store
stays in canonical form, and every slot of the window has been written. -/
def Obligations.StepKeepsInvariant : Prop :=
  ∀ s t : State, BlockInv s → step s = .next t → BlockInv t

/-- Every step answers a next state: the block never stops, traps or holds a port (60_exceptions.md R126, R138, 20_memory.md R51). -/
def Obligations.EveryStepCompletes : Prop :=
  ∀ s : State, ∃ t, step s = .next t

/-- A step runs the decoded command: where the port served presents a word, the step is the command's meaning at that state, its
response handed back to that port's agent; a word that is no command is answered ILLEGAL_COMMAND the same way; a port that presents
nothing, and an ended schedule, leave the block alone (the model's choice, log 7 and 8). -/
def Obligations.StepRunsDecodedCommand : Prop :=
  (∀ (s : State) (p : Port) (us : List Turn) (w : Word) (i : Instr), s.turns = .port p :: us →
    presented p (settle p { s with turns := us }) = some w → decode w = .ok i →
    step s = handBack p (exec i { settle p { s with turns := us } with port := p })) ∧
  (∀ (s : State) (p : Port) (us : List Turn) (w : Word) (x : Reject), s.turns = .port p :: us →
    presented p (settle p { s with turns := us }) = some w → decode w = .error x →
    step s = .next (deliver p ⟨.illegalCommand, false, 0#32⟩
      { settle p { s with turns := us } with port := p, resp := some (p, ⟨.illegalCommand, false, 0#32⟩) })) ∧
  (∀ (s : State) (p : Port) (us : List Turn), s.turns = .port p :: us →
    presented p (settle p { s with turns := us }) = none → step s = .next (settle p { s with turns := us })) ∧
  (∀ s : State, s.turns = [] → step s = .next s)

/-- A command placed by `withFetchWord` is the one the very next step runs, on a port that may issue its opcode (log 4, 17). -/
def Obligations.PlacedWordRunsNext : Prop :=
  ∀ (s : State) (w : Word) (i : Instr), decode w = .ok i →
    ∃ p, mayIssue i p = true ∧
      step (s.withFetchWord 32 w.toNat) = handBack p (exec i { giveWord p w s with port := p })

/-- Who may write what (10_state.md R20, 60_exceptions.md R132): over one step, `wr` and the store change only in a producer turn,
`rd` only in a consumer turn or in a producer turn on a full buffer, `exp` in neither; a host turn or a reset that changes a
counter empties the buffer; ITEM_BITS never changes. -/
def Obligations.OnlyTheOwnersWrite : Prop :=
  ∀ s t : State, step s = .next t →
    t.itemBits = s.itemBits ∧
    (∀ us, s.turns = .port .producer :: us →
      t.exp = s.exp ∧ (t.wr = s.wr ∨ t.wr = s.wr + 1#32) ∧ (t.rd = s.rd ∨ (t.rd = s.rd + 1#32 ∧ isFull s = true))) ∧
    (∀ us, s.turns = .port .consumer :: us →
      t.exp = s.exp ∧ t.wr = s.wr ∧ t.store = s.store ∧ (t.rd = s.rd ∨ (t.rd = s.rd + 1#32 ∧ isEmpty s = false))) ∧
    (∀ us, s.turns = .port .host :: us →
      t.store = s.store ∧ ((t.exp = s.exp ∧ t.rd = s.rd ∧ t.wr = s.wr) ∨ (t.rd = 0#32 ∧ t.wr = 0#32))) ∧
    (∀ us, s.turns = .reset :: us → t.rd = 0#32 ∧ t.wr = 0#32 ∧ t.exp = 16#5)

/-- The counters move only by the steps of 10_state.md R21: by one per item, or to 0 by a successful CONFIG, wrapping at 2^32. -/
def Obligations.CountersMoveOnlyByOneOrToZero : Prop :=
  (∀ (p : Port) (w : Word) (s t : State), issue p w s = .next t →
    (t.wr = s.wr ∨ (t.wr = s.wr + 1#32 ∧ p = .producer ∧ ∃ d, decode w = .ok (.push d)) ∨
      (t.wr = 0#32 ∧ configures p w = true)) ∧
    (t.rd = s.rd ∨
      (t.rd = s.rd + 1#32 ∧ ((p = .consumer ∧ decode w = .ok .pop) ∨
        (p = .producer ∧ isFull s = true ∧ ∃ d, decode w = .ok (.push d)))) ∨
      (t.rd = 0#32 ∧ configures p w = true)) ∧
    (configures p w = true → t.rd = 0#32 ∧ t.wr = 0#32)) ∧
  (0xFFFFFFFF#32 + 1#32 = 0#32)

/-- `exp` is written only by an accepted CONFIG, and then holds its exponent (10_state.md R22). -/
def Obligations.ExponentWrittenOnlyByConfig : Prop :=
  ∀ (p : Port) (w : Word) (s t : State), issue p w s = .next t →
    (configures p w = false → t.exp = s.exp) ∧
    (configures p w = true → t.exp.toNat = (w.extractLsb' 8 8).toNat ∧ 2 ≤ t.exp.toNat ∧ t.exp.toNat ≤ 16)

/-! ### Frames -/

/-- The frame of PUSH (41_push.md R90): `exp`, the parameter, the agents and the schedule are unchanged; `rd` is unchanged unless
the buffer was full; every slot but `wr & MASK` reads as before, and every slot does where the command was refused. -/
def Obligations.PushFrame : Prop :=
  ∀ (d : BitVec 16) (s t : State), exec (.push d) s = .next t →
    (t.exp = s.exp ∧ t.itemBits = s.itemBits ∧ t.era = s.era ∧ t.port = s.port ∧ t.producer = s.producer ∧
      t.consumer = s.consumer ∧ t.host = s.host ∧ t.turns = s.turns) ∧
    (isFull s = false → t.rd = s.rd) ∧
    (∀ a : BitVec 16, a ≠ slotOf s.exp s.wr → storeRead a t = storeRead a s) ∧
    ((s.port ≠ .producer ∨ 2 ^ s.itemBits.bits ≤ d.toNat) →
      t.rd = s.rd ∧ t.wr = s.wr ∧ ∀ a : BitVec 16, storeRead a t = storeRead a s)

/-- The frame of POP (42_fetch.md R100): only `rd` and the response may change; no slot does. -/
def Obligations.PopFrame : Prop :=
  ∀ s t : State, exec .pop s = .next t →
    t.exp = s.exp ∧ t.wr = s.wr ∧ t.itemBits = s.itemBits ∧ t.era = s.era ∧ t.port = s.port ∧
      t.producer = s.producer ∧ t.consumer = s.consumer ∧ t.host = s.host ∧ t.turns = s.turns ∧
      (∀ a : BitVec 16, storeRead a t = storeRead a s) ∧ ((s.port ≠ .consumer ∨ isEmpty s = true) → t.rd = s.rd)

/-- The frame of CONFIG (40_config.md R81): only `exp`, `rd`, `wr` and the response may change; no slot does (the model's reading, log
12). -/
def Obligations.ConfigFrame : Prop :=
  ∀ (e : BitVec 8) (s t : State), exec (.config e) s = .next t →
    t.itemBits = s.itemBits ∧ t.era = s.era ∧ t.port = s.port ∧ t.producer = s.producer ∧
      t.consumer = s.consumer ∧ t.host = s.host ∧ t.turns = s.turns ∧
      (∀ a : BitVec 16, storeRead a t = storeRead a s)

/-- The frame of LEN, CAP, FULL and FREE (43_status.md): only the response changes, and asking again gives it again
(20_memory.md R46). -/
def Obligations.StatusQueriesFrame : Prop :=
  ∀ (i : Instr) (s : State), i = .len ∨ i = .cap ∨ i = .full ∨ i = .free →
    ∃ t, exec i s = .next t ∧ t = { s with resp := t.resp } ∧ exec i t = .next t ∧
      ∀ a : BitVec 16, storeRead a t = storeRead a s

/-! ### The queue -/

/-- One command refines the bounded queue (00_scope.md R12, 10_state.md R25, R26): from a state that meets the invariant, any word
on any port answers what the queue answers and leaves the state of the queue after it. -/
def Obligations.CommandRefinesQueue : Prop :=
  ∀ (p : Port) (w : Word) (s : State), BlockInv s →
    ∃ t, issue p w s = .next t ∧ BlockInv t ∧
      t.resp = some (p, (queueExec s.itemBits p w (queueOf s)).1) ∧
      queueOf t = (queueExec s.itemBits p w (queueOf s)).2

/-- HEADLINE: every schedule of commands from the three ports, of any length, answers exactly what the bounded queue answers in the
same order (20_memory.md R48, 10_state.md R25 to R27). -/
def Obligations.EveryScheduleRefinesQueue : Prop :=
  ∀ (cs : List (Port × Word)) (s : State), BlockInv s →
    ∃ rs t, runCommands cs s = some (rs, t) ∧ BlockInv t ∧
      queueRun s.itemBits cs (queueOf s) = (rs, queueOf t)

/-- HEADLINE: FIFO order (10_state.md R27). Along any schedule without an accepted CONFIG, what was held followed by what was pushed
is what left, in order, followed by what is still held; the valid POPs return exactly the items that left by a POP; the others left
by the eviction of a PUSH into a full buffer. -/
def Obligations.FifoOrderWithEvictions : Prop :=
  ∀ (cs : List (Port × Word)) (s : State), BlockInv s → (∀ c ∈ cs, configures c.1 c.2 = false) →
    ∃ rs t, runCommands cs s = some (rs, t) ∧
      contents s ++ arrivals s.itemBits cs = (departures cs s).map (fun h => h.1) ++ contents t ∧
      poppedValues cs rs =
        ((departures cs s).filter fun h => h.2 == .popped).map (fun h => h.1.setWidth 32) ∧
      List.Sublist (poppedValues cs rs) ((contents s ++ arrivals s.itemBits cs).map fun v => v.setWidth 32)

/-- A POP of a reachable buffer reads a slot that has been written, never an unspecified one (10_state.md R28), and returns the
oldest item held. -/
def Obligations.PopReadsAWrittenSlot : Prop :=
  ∀ s : State, BlockInv s → s.port = .consumer → isEmpty s = false →
    ∃ v t, storeFind (slotOf s.exp s.rd).toNat s.store = some v ∧ exec .pop s = .next t ∧
      t.resp = some (.consumer, okValue (v.setWidth 32)) ∧ contents s = v :: contents t

/-- HEADLINE: slot contents outside the window are unobservable (10_state.md R28, R23): two machines that differ at most in those
slots, and in what unwritten slots hold, take any number of steps with the same responses, the same results for every agent and the
same registers, whatever the schedule. -/
def Obligations.DeadSlotsUnobservable : Prop :=
  ∀ (n : Nat) (s u : State), SameView s u →
    ∃ s' u', Sys2Proof.core.run n s = .next s' ∧ Sys2Proof.core.run n u = .next u' ∧ SameView s' u'

/-- Counter wrap is not a hazard (70_reset_and_hazards.md R148, 00_scope.md R10): with both counters moved on by a multiple of CAP,
across the wrap or not, every command answers the same, and the counters end moved on by as much, or set to 0 alike by CONFIG. -/
def Obligations.CounterShiftUnobservable : Prop :=
  ∀ (d : Counter) (p : Port) (w : Word) (s : State), d.toNat % 2 ^ s.exp.toNat = 0 →
    ∃ t u, issue p w s = .next t ∧ issue p w (shiftCounters d s) = .next u ∧ u.resp = t.resp ∧
      u = (if configures p w then t else shiftCounters d t)

/-! ### Schedules and races -/

/-- Every interleaving is a run of the machine (60_exceptions.md R131, 20_memory.md R54): loaded with a schedule, the step takes
its commands in that order, each port's in its issue order, and hands each response to the port that issued the command. The loading
is the model's (log 4). -/
def Obligations.StepsRealiseEverySchedule : Prop :=
  ∀ (cs : List (Port × Word)) (s : State),
    ∃ rs t, runCommands cs s = some (rs, t) ∧ rs.length = cs.length ∧
      Sys2Proof.core.run cs.length (loadSchedule cs s) = .next { t with
        producer := ⟨[], s.producer.results ++ repliesOf .producer cs rs⟩
        consumer := ⟨[], s.consumer.results ++ repliesOf .consumer cs rs⟩
        host := ⟨[], s.host.results ++ repliesOf .host cs rs⟩
        turns := s.turns }

/-- A PUSH and a POP racing on a full buffer (60_exceptions.md R133): both orders are runs, with these outcomes. -/
def Obligations.PushPopRaceOutcomes : Prop :=
  ∀ (s : State) (b : BitVec 16) (a1 a2 : Item) (rest : List Item), BlockInv s → isFull s = true →
    contents s = a1 :: a2 :: rest → b.toNat < 2 ^ s.itemBits.bits →
    (∃ t, runCommands [(.consumer, 0x3#32), (.producer, encode (.push b))] s =
        some ([okValue (a1.setWidth 32), okNothing], t) ∧ contents t = a2 :: rest ++ [b]) ∧
    (∃ t, runCommands [(.producer, encode (.push b)), (.consumer, 0x3#32)] s =
        some ([okNothing, okValue (a2.setWidth 32)], t) ∧ contents t = rest ++ [b])

/-- For the consumer the occupancy can only grow between two of its own commands, apart from a CONFIG (70_reset_and_hazards.md
R144). -/
def Obligations.ConsumerSeesOccupancyGrow : Prop :=
  ∀ (cs : List (Port × Word)) (s : State), BlockInv s →
    (∀ c ∈ cs, c.1 ≠ .consumer ∧ configures c.1 c.2 = false) →
    ∃ rs t, runCommands cs s = some (rs, t) ∧ (s.wr - s.rd).toNat ≤ (t.wr - t.rd).toNat

/-- For the producer the occupancy can only shrink between two of its own commands, and `FREE = 1` answered to it means that its next
PUSH will not evict (70_reset_and_hazards.md R144). R144 sets a CONFIG apart; accepted CONFIGs are admitted here, since one empties
the buffer, under a capacity above 0 (40_config.md R81). -/
def Obligations.ProducerSeesOccupancyShrink : Prop :=
  ∀ (cs : List (Port × Word)) (s : State), BlockInv s → (∀ c ∈ cs, c.1 ≠ .producer) →
    ∃ rs t, runCommands cs s = some (rs, t) ∧ (t.wr - t.rd).toNat ≤ (s.wr - s.rd).toNat ∧
      (hasFree s = true → ∀ d : BitVec 16, departure .producer (encode (.push d)) t = [])

/-- CONFIG under traffic (40_config.md R83): after an accepted CONFIG every POP answers "no item" until an item is pushed. -/
def Obligations.ConfigDiscardsItems : Prop :=
  ∀ (w : Word) (cs : List (Port × Word)) (s : State), BlockInv s → configures .host w = true →
    (∀ c ∈ cs, arrival s.itemBits c.1 c.2 = []) →
    ∃ r rs t, runCommands ((.host, w) :: cs) s = some (r :: rs, t) ∧ r = okNothing ∧ poppedValues cs rs = [] ∧
      contents t = []

/-! ### Bursts -/

/-- The burst law of PUSHN (30_encoding.md R70, 41_push.md R93): with the producer's turns in a row it returns its count, and the
buffer holds the newest `min(CAP, L + n)` items; nobody else's agent is touched. An empty burst takes one turn (the
model's choice, log 16), issues nothing and returns 0. -/
def Obligations.PushBurstKeepsNewest : Prop :=
  ∀ (s : State) (bs : List Item) (res : List AgentResult) (us : List Turn), BlockInv s →
    s.producer = ⟨[.pushN bs 0], res⟩ → (∀ b ∈ bs, b.toNat < 2 ^ s.itemBits.bits) →
    s.turns = List.replicate (max 1 bs.length) (.port .producer) ++ us →
    ∃ t, Sys2Proof.core.run (max 1 bs.length) s = .next t ∧ BlockInv t ∧
      t.producer = ⟨[], res ++ [.pushed bs.length]⟩ ∧ t.consumer = s.consumer ∧ t.host = s.host ∧ t.turns = us ∧
      t.exp = s.exp ∧ contents t = keepNewest (2 ^ s.exp.toNat) (contents s ++ bs) ∧
      (contents t).length = min (2 ^ s.exp.toNat) ((contents s).length + bs.length)

/-- FETCH with no command interleaved (30_encoding.md R71, 42_fetch.md R102): it returns the `min(m, len)` oldest items in order and
the buffer keeps the rest; it is empty when `m ≥ len`. That `FETCH 0` takes one turn is the model's choice (log 16). -/
def Obligations.FetchBurstReturnsOldest : Prop :=
  ∀ (s : State) (m : Word) (res : List AgentResult) (us : List Turn), BlockInv s →
    s.consumer = ⟨[.fetch m []], res⟩ →
    s.turns = List.replicate (fetchTurns m.toNat (contents s).length) (.port .consumer) ++ us →
    ∃ t, Sys2Proof.core.run (fetchTurns m.toNat (contents s).length) s = .next t ∧ BlockInv t ∧
      t.consumer =
        ⟨[], res ++ [.fetched (min m.toNat (contents s).length) ((contents s).take m.toNat)]⟩ ∧
      contents t = (contents s).drop m.toNat ∧ t.producer = s.producer ∧ t.host = s.host ∧ t.turns = us ∧ t.exp = s.exp

/-- FETCHL with no command interleaved (30_encoding.md R72): one LEN, then as many POPs as the items it returns, which are those
that FETCH returns. -/
def Obligations.SnapshotFetchReturnsOldest : Prop :=
  ∀ (s : State) (m : Word) (res : List AgentResult) (us : List Turn), BlockInv s →
    s.consumer = ⟨[.fetchL m], res⟩ →
    s.turns = List.replicate (1 + min m.toNat (contents s).length) (.port .consumer) ++ us →
    ∃ t, Sys2Proof.core.run (1 + min m.toNat (contents s).length) s = .next t ∧ BlockInv t ∧
      t.consumer =
        ⟨[], res ++ [.fetched (min m.toNat (contents s).length) ((contents s).take m.toNat)]⟩ ∧
      contents t = (contents s).drop m.toNat ∧ t.producer = s.producer ∧ t.host = s.host ∧ t.turns = us ∧ t.exp = s.exp

/-- Every POP of a FETCHL finds an item, whatever the producer does meanwhile, unless a CONFIG or a reset intervenes
(30_encoding.md R72): its LEN sets a count within the occupancy; any other step keeps that; each of its POPs answers with an
item. -/
def Obligations.SnapshotFetchNeverRunsShort : Prop :=
  (∀ (s : State) (m : Word) (ts : List ConsumerTask) (us : List Turn), BlockInv s → s.consumer.todo = .fetchL m :: ts →
    s.turns = .port .consumer :: us →
    ∃ t n, step s = .next t ∧ n.toNat = min m.toNat (s.wr - s.rd).toNat ∧ n.toNat ≤ (t.wr - t.rd).toNat ∧
      t.consumer = settleConsumer (.fetch n [] :: ts) s.consumer.results) ∧
  (∀ (s : State) (n : Word) (out : List Item) (ts : List ConsumerTask) (p : Port) (us : List Turn), BlockInv s →
    s.consumer.todo = .fetch n out :: ts → out.length < n.toNat →
    n.toNat - out.length ≤ (s.wr - s.rd).toNat → s.turns = .port p :: us →
    (p = .host → ∀ w, s.host.todo.head? = some w → configures .host w = false) →
    ∃ t, step s = .next t ∧
      (p ≠ .consumer → t.consumer = s.consumer ∧ n.toNat - out.length ≤ (t.wr - t.rd).toNat) ∧
      (p = .consumer → ∃ v, t.resp = some (.consumer, okValue (v.setWidth 32)) ∧
        contents s = v :: contents t ∧ n.toNat - (out.length + 1) ≤ (t.wr - t.rd).toNat ∧
        t.consumer = settleConsumer (.fetch n (out ++ [v]) :: ts) s.consumer.results))

/-- FIFO, overwrite-oldest and length laws at once (42_fetch.md R103, R104, 41_push.md R93): from an empty buffer, a PUSHN
of any items and then a FETCH of any count return the newest `min(n, CAP)` items, oldest first, as many as asked for, and leave the
rest. With `n ≤ CAP` and `m = n` these are the items pushed, in order. That an empty PUSHN and `FETCH 0` take one turn each is the
model's choice (log 16). -/
def Obligations.PushBurstThenFetchBurst : Prop :=
  ∀ (s : State) (bs : List Item) (m : Word) (rp rc : List AgentResult) (us : List Turn), BlockInv s → isEmpty s = true →
    s.producer = ⟨[.pushN bs 0], rp⟩ → s.consumer = ⟨[.fetch m []], rc⟩ →
    (∀ b ∈ bs, b.toNat < 2 ^ s.itemBits.bits) →
    s.turns = List.replicate (max 1 bs.length) (.port .producer) ++
      (List.replicate (fetchTurns m.toNat (min (2 ^ s.exp.toNat) bs.length)) (.port .consumer) ++ us) →
    ∃ t, Sys2Proof.core.run
        (max 1 bs.length + fetchTurns m.toNat (min (2 ^ s.exp.toNat) bs.length)) s = .next t ∧
      t.producer = ⟨[], rp ++ [.pushed bs.length]⟩ ∧
      t.consumer = ⟨[], rc ++ [.fetched (min m.toNat (min (2 ^ s.exp.toNat) bs.length))
        ((keepNewest (2 ^ s.exp.toNat) bs).take m.toNat)]⟩ ∧
      (t.wr - t.rd).toNat = min (2 ^ s.exp.toNat) bs.length - min m.toNat (min (2 ^ s.exp.toNat) bs.length)
end

