-- ==== Sys2Proof/Laws/State.lean ====
section
/-! SUPPORT. One lemma per field of State and per update of Machine/Ops.lean and Machine/Agents.lean, each true by unfolding, so that no
proof unfolds a record update. -/

namespace Sys2Proof.Machine

/-! ### respond -/

@[simp] theorem respond_itemBits (st : Status) (vld : Bool) (val : Word) (s : State) : (respond st vld val s).itemBits = s.itemBits := rfl
@[simp] theorem respond_exp (st : Status) (vld : Bool) (val : Word) (s : State) : (respond st vld val s).exp = s.exp := rfl
@[simp] theorem respond_rd (st : Status) (vld : Bool) (val : Word) (s : State) : (respond st vld val s).rd = s.rd := rfl
@[simp] theorem respond_wr (st : Status) (vld : Bool) (val : Word) (s : State) : (respond st vld val s).wr = s.wr := rfl
@[simp] theorem respond_store (st : Status) (vld : Bool) (val : Word) (s : State) : (respond st vld val s).store = s.store := rfl
@[simp] theorem respond_era (st : Status) (vld : Bool) (val : Word) (s : State) : (respond st vld val s).era = s.era := rfl
@[simp] theorem respond_port (st : Status) (vld : Bool) (val : Word) (s : State) : (respond st vld val s).port = s.port := rfl
@[simp] theorem respond_resp (st : Status) (vld : Bool) (val : Word) (s : State) : (respond st vld val s).resp = some (s.port, ⟨st, vld, val⟩) := rfl
@[simp] theorem respond_producer (st : Status) (vld : Bool) (val : Word) (s : State) : (respond st vld val s).producer = s.producer := rfl
@[simp] theorem respond_consumer (st : Status) (vld : Bool) (val : Word) (s : State) : (respond st vld val s).consumer = s.consumer := rfl
@[simp] theorem respond_host (st : Status) (vld : Bool) (val : Word) (s : State) : (respond st vld val s).host = s.host := rfl
@[simp] theorem respond_turns (st : Status) (vld : Bool) (val : Word) (s : State) : (respond st vld val s).turns = s.turns := rfl

/-! ### storeWrite -/

@[simp] theorem storeWrite_itemBits (slot : BitVec 16) (v : Item) (s : State) : (storeWrite slot v s).itemBits = s.itemBits := rfl
@[simp] theorem storeWrite_exp (slot : BitVec 16) (v : Item) (s : State) : (storeWrite slot v s).exp = s.exp := rfl
@[simp] theorem storeWrite_rd (slot : BitVec 16) (v : Item) (s : State) : (storeWrite slot v s).rd = s.rd := rfl
@[simp] theorem storeWrite_wr (slot : BitVec 16) (v : Item) (s : State) : (storeWrite slot v s).wr = s.wr := rfl
@[simp] theorem storeWrite_store (slot : BitVec 16) (v : Item) (s : State) : (storeWrite slot v s).store = storeInsert slot.toNat (itemOf s.itemBits v) s.store := rfl
@[simp] theorem storeWrite_era (slot : BitVec 16) (v : Item) (s : State) : (storeWrite slot v s).era = s.era := rfl
@[simp] theorem storeWrite_port (slot : BitVec 16) (v : Item) (s : State) : (storeWrite slot v s).port = s.port := rfl
@[simp] theorem storeWrite_resp (slot : BitVec 16) (v : Item) (s : State) : (storeWrite slot v s).resp = s.resp := rfl
@[simp] theorem storeWrite_producer (slot : BitVec 16) (v : Item) (s : State) : (storeWrite slot v s).producer = s.producer := rfl
@[simp] theorem storeWrite_consumer (slot : BitVec 16) (v : Item) (s : State) : (storeWrite slot v s).consumer = s.consumer := rfl
@[simp] theorem storeWrite_host (slot : BitVec 16) (v : Item) (s : State) : (storeWrite slot v s).host = s.host := rfl
@[simp] theorem storeWrite_turns (slot : BitVec 16) (v : Item) (s : State) : (storeWrite slot v s).turns = s.turns := rfl

/-! ### advanceRd -/

@[simp] theorem advanceRd_itemBits (s : State) : (advanceRd s).itemBits = s.itemBits := rfl
@[simp] theorem advanceRd_exp (s : State) : (advanceRd s).exp = s.exp := rfl
@[simp] theorem advanceRd_rd (s : State) : (advanceRd s).rd = s.rd + 1#32 := rfl
@[simp] theorem advanceRd_wr (s : State) : (advanceRd s).wr = s.wr := rfl
@[simp] theorem advanceRd_store (s : State) : (advanceRd s).store = s.store := rfl
@[simp] theorem advanceRd_era (s : State) : (advanceRd s).era = s.era := rfl
@[simp] theorem advanceRd_port (s : State) : (advanceRd s).port = s.port := rfl
@[simp] theorem advanceRd_resp (s : State) : (advanceRd s).resp = s.resp := rfl
@[simp] theorem advanceRd_producer (s : State) : (advanceRd s).producer = s.producer := rfl
@[simp] theorem advanceRd_consumer (s : State) : (advanceRd s).consumer = s.consumer := rfl
@[simp] theorem advanceRd_host (s : State) : (advanceRd s).host = s.host := rfl
@[simp] theorem advanceRd_turns (s : State) : (advanceRd s).turns = s.turns := rfl

/-! ### advanceWr -/

@[simp] theorem advanceWr_itemBits (s : State) : (advanceWr s).itemBits = s.itemBits := rfl
@[simp] theorem advanceWr_exp (s : State) : (advanceWr s).exp = s.exp := rfl
@[simp] theorem advanceWr_rd (s : State) : (advanceWr s).rd = s.rd := rfl
@[simp] theorem advanceWr_wr (s : State) : (advanceWr s).wr = s.wr + 1#32 := rfl
@[simp] theorem advanceWr_store (s : State) : (advanceWr s).store = s.store := rfl
@[simp] theorem advanceWr_era (s : State) : (advanceWr s).era = s.era := rfl
@[simp] theorem advanceWr_port (s : State) : (advanceWr s).port = s.port := rfl
@[simp] theorem advanceWr_resp (s : State) : (advanceWr s).resp = s.resp := rfl
@[simp] theorem advanceWr_producer (s : State) : (advanceWr s).producer = s.producer := rfl
@[simp] theorem advanceWr_consumer (s : State) : (advanceWr s).consumer = s.consumer := rfl
@[simp] theorem advanceWr_host (s : State) : (advanceWr s).host = s.host := rfl
@[simp] theorem advanceWr_turns (s : State) : (advanceWr s).turns = s.turns := rfl

/-! ### configure -/

@[simp] theorem configure_itemBits (e : BitVec 8) (s : State) : (configure e s).itemBits = s.itemBits := rfl
@[simp] theorem configure_exp (e : BitVec 8) (s : State) : (configure e s).exp = e.setWidth 5 := rfl
@[simp] theorem configure_rd (e : BitVec 8) (s : State) : (configure e s).rd = 0#32 := rfl
@[simp] theorem configure_wr (e : BitVec 8) (s : State) : (configure e s).wr = 0#32 := rfl
@[simp] theorem configure_store (e : BitVec 8) (s : State) : (configure e s).store = s.store := rfl
@[simp] theorem configure_era (e : BitVec 8) (s : State) : (configure e s).era = s.era := rfl
@[simp] theorem configure_port (e : BitVec 8) (s : State) : (configure e s).port = s.port := rfl
@[simp] theorem configure_resp (e : BitVec 8) (s : State) : (configure e s).resp = s.resp := rfl
@[simp] theorem configure_producer (e : BitVec 8) (s : State) : (configure e s).producer = s.producer := rfl
@[simp] theorem configure_consumer (e : BitVec 8) (s : State) : (configure e s).consumer = s.consumer := rfl
@[simp] theorem configure_host (e : BitVec 8) (s : State) : (configure e s).host = s.host := rfl
@[simp] theorem configure_turns (e : BitVec 8) (s : State) : (configure e s).turns = s.turns := rfl

/-! ### resetBlock -/

@[simp] theorem resetBlock_itemBits (s : State) : (resetBlock s).itemBits = s.itemBits := rfl
@[simp] theorem resetBlock_exp (s : State) : (resetBlock s).exp = State.reset.exp := rfl
@[simp] theorem resetBlock_rd (s : State) : (resetBlock s).rd = 0#32 := rfl
@[simp] theorem resetBlock_wr (s : State) : (resetBlock s).wr = 0#32 := rfl
@[simp] theorem resetBlock_store (s : State) : (resetBlock s).store = [] := rfl
@[simp] theorem resetBlock_era (s : State) : (resetBlock s).era = s.era + 1 := rfl
@[simp] theorem resetBlock_port (s : State) : (resetBlock s).port = s.port := rfl
@[simp] theorem resetBlock_resp (s : State) : (resetBlock s).resp = s.resp := rfl
@[simp] theorem resetBlock_producer (s : State) : (resetBlock s).producer = s.producer := rfl
@[simp] theorem resetBlock_consumer (s : State) : (resetBlock s).consumer = s.consumer := rfl
@[simp] theorem resetBlock_host (s : State) : (resetBlock s).host = s.host := rfl
@[simp] theorem resetBlock_turns (s : State) : (resetBlock s).turns = s.turns := rfl

/-! ### withPort -/

@[simp] theorem withPort_itemBits (p : Port) (s : State) : (withPort p s).itemBits = s.itemBits := rfl
@[simp] theorem withPort_exp (p : Port) (s : State) : (withPort p s).exp = s.exp := rfl
@[simp] theorem withPort_rd (p : Port) (s : State) : (withPort p s).rd = s.rd := rfl
@[simp] theorem withPort_wr (p : Port) (s : State) : (withPort p s).wr = s.wr := rfl
@[simp] theorem withPort_store (p : Port) (s : State) : (withPort p s).store = s.store := rfl
@[simp] theorem withPort_era (p : Port) (s : State) : (withPort p s).era = s.era := rfl
@[simp] theorem withPort_port (p : Port) (s : State) : (withPort p s).port = p := rfl
@[simp] theorem withPort_resp (p : Port) (s : State) : (withPort p s).resp = s.resp := rfl
@[simp] theorem withPort_producer (p : Port) (s : State) : (withPort p s).producer = s.producer := rfl
@[simp] theorem withPort_consumer (p : Port) (s : State) : (withPort p s).consumer = s.consumer := rfl
@[simp] theorem withPort_host (p : Port) (s : State) : (withPort p s).host = s.host := rfl
@[simp] theorem withPort_turns (p : Port) (s : State) : (withPort p s).turns = s.turns := rfl

/-! ### withTurns -/

@[simp] theorem withTurns_itemBits (ts : List Turn) (s : State) : (withTurns ts s).itemBits = s.itemBits := rfl
@[simp] theorem withTurns_exp (ts : List Turn) (s : State) : (withTurns ts s).exp = s.exp := rfl
@[simp] theorem withTurns_rd (ts : List Turn) (s : State) : (withTurns ts s).rd = s.rd := rfl
@[simp] theorem withTurns_wr (ts : List Turn) (s : State) : (withTurns ts s).wr = s.wr := rfl
@[simp] theorem withTurns_store (ts : List Turn) (s : State) : (withTurns ts s).store = s.store := rfl
@[simp] theorem withTurns_era (ts : List Turn) (s : State) : (withTurns ts s).era = s.era := rfl
@[simp] theorem withTurns_port (ts : List Turn) (s : State) : (withTurns ts s).port = s.port := rfl
@[simp] theorem withTurns_resp (ts : List Turn) (s : State) : (withTurns ts s).resp = s.resp := rfl
@[simp] theorem withTurns_producer (ts : List Turn) (s : State) : (withTurns ts s).producer = s.producer := rfl
@[simp] theorem withTurns_consumer (ts : List Turn) (s : State) : (withTurns ts s).consumer = s.consumer := rfl
@[simp] theorem withTurns_host (ts : List Turn) (s : State) : (withTurns ts s).host = s.host := rfl
@[simp] theorem withTurns_turns (ts : List Turn) (s : State) : (withTurns ts s).turns = ts := rfl

/-! ### settle -/

@[simp] theorem settle_itemBits (p : Port) (s : State) : (settle p s).itemBits = s.itemBits := by cases p <;> rfl
@[simp] theorem settle_exp (p : Port) (s : State) : (settle p s).exp = s.exp := by cases p <;> rfl
@[simp] theorem settle_rd (p : Port) (s : State) : (settle p s).rd = s.rd := by cases p <;> rfl
@[simp] theorem settle_wr (p : Port) (s : State) : (settle p s).wr = s.wr := by cases p <;> rfl
@[simp] theorem settle_store (p : Port) (s : State) : (settle p s).store = s.store := by cases p <;> rfl
@[simp] theorem settle_era (p : Port) (s : State) : (settle p s).era = s.era := by cases p <;> rfl
@[simp] theorem settle_port (p : Port) (s : State) : (settle p s).port = s.port := by cases p <;> rfl
@[simp] theorem settle_resp (p : Port) (s : State) : (settle p s).resp = s.resp := by cases p <;> rfl
@[simp] theorem settle_turns (p : Port) (s : State) : (settle p s).turns = s.turns := by cases p <;> rfl

/-! ### deliver -/

@[simp] theorem deliver_itemBits (p : Port) (r : Response) (s : State) : (deliver p r s).itemBits = s.itemBits := by cases p <;> rfl
@[simp] theorem deliver_exp (p : Port) (r : Response) (s : State) : (deliver p r s).exp = s.exp := by cases p <;> rfl
@[simp] theorem deliver_rd (p : Port) (r : Response) (s : State) : (deliver p r s).rd = s.rd := by cases p <;> rfl
@[simp] theorem deliver_wr (p : Port) (r : Response) (s : State) : (deliver p r s).wr = s.wr := by cases p <;> rfl
@[simp] theorem deliver_store (p : Port) (r : Response) (s : State) : (deliver p r s).store = s.store := by cases p <;> rfl
@[simp] theorem deliver_era (p : Port) (r : Response) (s : State) : (deliver p r s).era = s.era := by cases p <;> rfl
@[simp] theorem deliver_port (p : Port) (r : Response) (s : State) : (deliver p r s).port = s.port := by cases p <;> rfl
@[simp] theorem deliver_resp (p : Port) (r : Response) (s : State) : (deliver p r s).resp = s.resp := by cases p <;> rfl
@[simp] theorem deliver_turns (p : Port) (r : Response) (s : State) : (deliver p r s).turns = s.turns := by cases p <;> rfl

/-! ### giveWord -/

@[simp] theorem giveWord_itemBits (p : Port) (w : Word) (s : State) : (giveWord p w s).itemBits = s.itemBits := by cases p <;> rfl
@[simp] theorem giveWord_exp (p : Port) (w : Word) (s : State) : (giveWord p w s).exp = s.exp := by cases p <;> rfl
@[simp] theorem giveWord_rd (p : Port) (w : Word) (s : State) : (giveWord p w s).rd = s.rd := by cases p <;> rfl
@[simp] theorem giveWord_wr (p : Port) (w : Word) (s : State) : (giveWord p w s).wr = s.wr := by cases p <;> rfl
@[simp] theorem giveWord_store (p : Port) (w : Word) (s : State) : (giveWord p w s).store = s.store := by cases p <;> rfl
@[simp] theorem giveWord_era (p : Port) (w : Word) (s : State) : (giveWord p w s).era = s.era := by cases p <;> rfl
@[simp] theorem giveWord_port (p : Port) (w : Word) (s : State) : (giveWord p w s).port = s.port := by cases p <;> rfl
@[simp] theorem giveWord_resp (p : Port) (w : Word) (s : State) : (giveWord p w s).resp = s.resp := by cases p <;> rfl
@[simp] theorem giveWord_turns (p : Port) (w : Word) (s : State) : (giveWord p w s).turns = s.turns := by cases p <;> rfl

end Sys2Proof.Machine
end

