-- ==== Sys2Proof/Laws/Slots.lean ====
section
/-! SUPPORT. The arithmetic of capacities and slots: CAP is 2^EXP, a slot is the logical index modulo CAP, the CAP indices of the
window never share a slot, and a move by a multiple of CAP changes no slot (00_scope.md R8, R10, 10_state.md R24, R26). -/

namespace Sys2Proof.Machine

theorem capacityOf_toNat (e : BitVec 5) : (capacityOf e).toNat = 2 ^ e.toNat := by
  have h : e.toNat < 32 := e.isLt
  rw [capacityOf, BitVec.toNat_twoPow, Nat.mod_eq_of_lt (Nat.pow_lt_pow_right (by decide) h)]

theorem maskOf_toNat (e : BitVec 5) : (maskOf e).toNat = 2 ^ e.toNat - 1 := by
  have h : 2 ^ e.toNat < 2 ^ 32 := Nat.pow_lt_pow_right (by decide) e.isLt
  have h' : 0 < 2 ^ e.toNat := Nat.two_pow_pos _
  have h1 : (1#32).toNat = 1 := rfl
  rw [maskOf, BitVec.toNat_sub, capacityOf_toNat, h1]
  omega

theorem slotOf_toNat_any (e : BitVec 5) (i : Counter) : (slotOf e i).toNat = i.toNat % 2 ^ e.toNat % 65536 := by
  rw [slotOf, BitVec.toNat_setWidth, BitVec.toNat_and, maskOf_toNat, Nat.and_two_pow_sub_one_eq_mod]

theorem two_pow_exp_le {e : BitVec 5} (h : e.toNat ≤ 16) : 2 ^ e.toNat ≤ 65536 :=
  Nat.pow_le_pow_right (n := 2) (by decide) h

/-- The slot of a logical index is the index modulo CAP (00_scope.md R10). -/
theorem slotOf_toNat {e : BitVec 5} (h : e.toNat ≤ 16) (i : Counter) : (slotOf e i).toNat = i.toNat % 2 ^ e.toNat := by
  rw [slotOf_toNat_any]
  exact Nat.mod_eq_of_lt (Nat.lt_of_lt_of_le (Nat.mod_lt _ (Nat.two_pow_pos _)) (two_pow_exp_le h))

/-- `(i mod 2^32) & MASK = i mod CAP`: CAP divides 2^32 (00_scope.md R10). -/
theorem mod_two_pow32_mod_capacity (e : BitVec 5) (n : Nat) : n % 2 ^ 32 % 2 ^ e.toNat = n % 2 ^ e.toNat :=
  Nat.mod_mod_of_dvd _ (Nat.pow_dvd_pow 2 (Nat.le_of_lt e.isLt))

/-- The slot of the index `n` above `r`. -/
theorem slotOf_add_toNat (e : BitVec 5) (r : Counter) (n : Nat) :
    (slotOf e (r + BitVec.ofNat 32 n)).toNat = (r.toNat + n) % 2 ^ e.toNat % 65536 := by
  rw [slotOf_toNat_any, BitVec.toNat_add, BitVec.toNat_ofNat, Nat.add_mod_mod, mod_two_pow32_mod_capacity]

/-- CAP logical indices in a row never share a slot (10_state.md R26). -/
theorem slotOf_add_inj {e : BitVec 5} (h : e.toNat ≤ 16) {r : Counter} {a b : Nat} (ha : a < 2 ^ e.toNat)
    (hb : b < 2 ^ e.toNat) (hab : slotOf e (r + BitVec.ofNat 32 a) = slotOf e (r + BitVec.ofNat 32 b)) : a = b := by
  have hlt : ∀ n : Nat, n % 2 ^ e.toNat < 65536 := fun n =>
    Nat.lt_of_lt_of_le (Nat.mod_lt _ (Nat.two_pow_pos _)) (two_pow_exp_le h)
  have hn := congrArg BitVec.toNat hab
  rw [slotOf_add_toNat, slotOf_add_toNat, Nat.mod_eq_of_lt (hlt _), Nat.mod_eq_of_lt (hlt _)] at hn
  have hm : a ≡ b [MOD 2 ^ e.toNat] := Nat.ModEq.add_left_cancel' r.toNat hn
  have hm' : a % 2 ^ e.toNat = b % 2 ^ e.toNat := hm
  rwa [Nat.mod_eq_of_lt ha, Nat.mod_eq_of_lt hb] at hm'

/-- A move by a multiple of CAP changes no slot (70_reset_and_hazards.md R148). -/
theorem slotOf_add_multiple {e : BitVec 5} {d : Counter} (h : d.toNat % 2 ^ e.toNat = 0) (i : Counter) :
    slotOf e (i + d) = slotOf e i := by
  apply BitVec.eq_of_toNat_eq
  rw [slotOf_toNat_any, slotOf_toNat_any, BitVec.toNat_add, mod_two_pow32_mod_capacity, Nat.add_mod, h, Nat.add_zero,
    Nat.mod_mod]

end Sys2Proof.Machine
end

