-- ==== Sys2Proof/Laws/Store.lean ====
section
/-! SUPPORT. The laws of the store: a read after a write, that a write leaves every other slot alone, that every store operation
keeps the canonical form, and that equal stores are equal lists. -/

namespace Sys2Proof.Machine

/-! ### Items -/

@[simp] theorem itemOf_itemOf (width : ItemWidth) (v : BitVec 16) : itemOf width (itemOf width v) = itemOf width v := by
  cases width <;> ext i hi <;> simp [itemOf, ItemWidth.bits]

theorem itemOf_toNat (width : ItemWidth) (v : BitVec 16) : (itemOf width v).toNat = v.toNat % 2 ^ width.bits := by
  have hb : width.bits ≤ 16 := by cases width <;> decide
  have hlt : v.toNat % 2 ^ width.bits < 2 ^ 16 :=
    Nat.lt_of_lt_of_le (Nat.mod_lt _ (Nat.two_pow_pos _)) (Nat.pow_le_pow_right (by decide) hb)
  rw [itemOf, BitVec.toNat_setWidth, BitVec.toNat_setWidth, Nat.mod_eq_of_lt hlt]

/-- The width check and the range of the assembler are one condition (30_encoding.md R65, R69). -/
theorem itemTooWide_eq (width : ItemWidth) (d : BitVec 16) :
    itemTooWide width d = decide (2 ^ width.bits ≤ d.toNat) := by
  have hd : d.toNat < 65536 := d.isLt
  cases width
  · have hf : (d.extractLsb' 8 8).toNat = d.toNat / 256 := by
      rw [BitVec.extractLsb'_toNat, Nat.shiftRight_eq_div_pow]
      omega
    have hz : d.extractLsb' 8 8 = 0x0#8 ↔ d.toNat / 256 = 0 := by rw [← BitVec.toNat_inj, hf]; rfl
    by_cases h : d.toNat / 256 = 0
    · have : ¬ 256 ≤ d.toNat := by omega
      simp [itemTooWide, ItemWidth.bits, hz.2 h, this]
    · have h1 : 256 ≤ d.toNat := by omega
      have h2 : d.extractLsb' 8 8 ≠ 0x0#8 := fun h' => h (hz.1 h')
      simp only [itemTooWide, ItemWidth.bits, bne_iff_ne.2 h2]
      exact (decide_eq_true h1).symm
  · have h : ¬ 2 ^ 16 ≤ d.toNat := by omega
    simp only [itemTooWide, ItemWidth.bits, h, decide_false]

/-- An item that fits is its own low ITEM_BITS bits. -/
theorem itemOf_of_fits {width : ItemWidth} {d : BitVec 16} (h : itemTooWide width d = false) : itemOf width d = d := by
  rw [itemTooWide_eq, decide_eq_false_iff_not, Nat.not_le] at h
  apply BitVec.eq_of_toNat_eq
  rw [itemOf_toNat, Nat.mod_eq_of_lt h]

/-! ### Finding after inserting -/

theorem storeFind_insert_same (k : Nat) (v : Item) (m : Store) : storeFind k (storeInsert k v m) = some v := by
  induction m with
  | nil => simp [storeInsert, storeFind]
  | cons e rest ih =>
    obtain ⟨j, u⟩ := e
    simp only [storeInsert]
    split
    · simp [storeFind]
    · split
      · simp [storeFind]
      · simp [storeFind, *]

theorem storeFind_insert_other {a k : Nat} (h : a ≠ k) (v : Item) (m : Store) :
    storeFind a (storeInsert k v m) = storeFind a m := by
  induction m with
  | nil => simp [storeInsert, storeFind, h]
  | cons e rest ih =>
    obtain ⟨j, u⟩ := e
    simp only [storeInsert]
    split
    · simp [storeFind, h]
    · split
      · subst_vars; simp [storeFind, h]
      · simp [storeFind, ih]

/-! ### The canonical form -/

theorem storeWfFrom_cons (width : ItemWidth) (low j : Nat) (v : Item) (rest : Store) :
    storeWfFrom width low ((j, v) :: rest) = true ↔
      low ≤ j ∧ j < Config.storeSlots ∧ itemOf width v = v ∧ storeWfFrom width (j + 1) rest = true := by
  simp [storeWfFrom, and_assoc]

theorem storeInsert_wfFrom {width : ItemWidth} {k : Nat} {v : Item} (hk : k < Config.storeSlots)
    (hv : itemOf width v = v) (m : Store) :
    ∀ low, low ≤ k → storeWfFrom width low m = true → storeWfFrom width low (storeInsert k v m) = true := by
  induction m with
  | nil => intro low hl _; simp [storeInsert, storeWfFrom, hl, hk, hv]
  | cons e rest ih =>
    obtain ⟨j, u⟩ := e
    intro low hl hm
    obtain ⟨h1, h2, h3, h4⟩ := (storeWfFrom_cons ..).1 hm
    simp only [storeInsert]
    split
    · rw [storeWfFrom_cons, storeWfFrom_cons]
      exact ⟨hl, hk, hv, by omega, h2, h3, h4⟩
    · split
      · subst_vars
        rw [storeWfFrom_cons]; exact ⟨hl, hk, hv, h4⟩
      · rw [storeWfFrom_cons]; exact ⟨h1, h2, h3, ih _ (by omega) h4⟩

/-- A write keeps the canonical form. -/
theorem storeWrite_wf {s : State} (slot : BitVec 16) (v : Item) (h : storeWf s.itemBits s.store = true) :
    storeWf s.itemBits (storeWrite slot v s).store = true :=
  storeInsert_wfFrom slot.isLt (itemOf_itemOf _ _) _ 0 (Nat.zero_le _) h

/-- The store after reset is in canonical form. -/
theorem reset_store_wf (width : ItemWidth) : storeWf width State.reset.store = true := rfl

/-- No slot below `low` is listed in a canonical store that starts at `low`. -/
theorem storeFind_below {width : ItemWidth} {k : Nat} (m : Store) :
    ∀ low, storeWfFrom width low m = true → k < low → storeFind k m = none := by
  induction m with
  | nil => intros; rfl
  | cons e rest ih =>
    obtain ⟨j, u⟩ := e
    intro low hm hk
    obtain ⟨h1, _, _, h4⟩ := (storeWfFrom_cons ..).1 hm
    have : k ≠ j := by omega
    simp [storeFind, this, ih _ h4 (by omega)]

theorem storeWfFrom_ext {width : ItemWidth} (m : Store) :
    ∀ (n : Store) (low : Nat), storeWfFrom width low m = true → storeWfFrom width low n = true →
      (∀ k, storeFind k m = storeFind k n) → m = n := by
  induction m with
  | nil =>
    intro n low _ hn h
    cases n with
    | nil => rfl
    | cons e rest => simpa [storeFind] using h e.1
  | cons e rest ih =>
    obtain ⟨j, u⟩ := e
    intro n low hm hn h
    obtain ⟨_, _, _, hm'⟩ := (storeWfFrom_cons ..).1 hm
    cases n with
    | nil => simpa [storeFind] using h j
    | cons e' rest' =>
      obtain ⟨j', u'⟩ := e'
      obtain ⟨_, _, _, hn'⟩ := (storeWfFrom_cons ..).1 hn
      have hj : j = j' := by
        by_contra hne
        rcases Nat.lt_or_gt_of_ne hne with hlt | hlt
        · have h1 := h j
          have : j ≠ j' := by omega
          simp [storeFind, this, storeFind_below rest' _ hn' (by omega : j < j' + 1)] at h1
        · have h1 := h j'
          have : j' ≠ j := by omega
          simp [storeFind, this, storeFind_below rest _ hm' (by omega : j' < j + 1)] at h1
      subst hj
      have hu : u = u' := by simpa [storeFind] using h j
      subst hu
      congr 1
      refine ih rest' (j + 1) hm' hn' fun k => ?_
      by_cases hk : k = j
      · subst hk
        rw [storeFind_below rest _ hm' (by omega), storeFind_below rest' _ hn' (by omega)]
      · simpa [storeFind, hk] using h k

/-- Two canonical stores that list the same items in the same slots are the same list. -/
theorem storeWf_ext {width : ItemWidth} {m n : Store} (hm : storeWf width m = true) (hn : storeWf width n = true)
    (h : ∀ k, storeFind k m = storeFind k n) : m = n :=
  storeWfFrom_ext m n 0 hm hn h

/-! ### Reading after writing -/

theorem storeRead_storeWrite_same (slot : BitVec 16) (v : Item) (s : State) :
    storeRead slot (storeWrite slot v s) = itemOf s.itemBits v := by
  simp [storeRead, storeFind_insert_same]

theorem storeRead_storeWrite_other {a slot : BitVec 16} (h : a ≠ slot) (v : Item) (s : State) :
    storeRead a (storeWrite slot v s) = storeRead a s := by
  have : a.toNat ≠ slot.toNat := fun he => h (BitVec.eq_of_toNat_eq he)
  simp [storeRead, storeFind_insert_other this]

/-- What a read depends on: the width, the store and the era. -/
theorem storeRead_congr {s t : State} (hw : t.itemBits = s.itemBits) (hm : t.store = s.store) (he : t.era = s.era)
    (a : BitVec 16) : storeRead a t = storeRead a s := by
  simp [storeRead, hw, hm, he]

/-- An item read from the store has no bit above ITEM_BITS (42_fetch.md R100). -/
theorem itemOf_storeRead (a : BitVec 16) (s : State) : itemOf s.itemBits (storeRead a s) = storeRead a s := by
  simp [storeRead]

end Sys2Proof.Machine
end

