-- ==== Sys2Proof/Laws/Exec.lean ====
section
/-! SUPPORT. What the shared operations and a command can do, said once: `exec_cases` and `issue_cases` are the inversion lemmas that
later proofs cite instead of unfolding a meaning. -/

namespace Sys2Proof.Machine

/-- The port check lets the body through on an allowed port. -/
theorem onAllowedPort_allowed {i : Instr} {s : State} (h : mayIssue i s.port = true) (body : Answer) :
    onAllowedPort i s body = body := by
  simp [onAllowedPort, h]

/-- The port check answers ILLEGAL_COMMAND on any other port. -/
theorem onAllowedPort_refused {i : Instr} {s : State} (h : mayIssue i s.port = false) (body : Answer) :
    onAllowedPort i s body = .next (respond .illegalCommand false 0#32 s) := by
  simp [onAllowedPort, h, raise]

theorem mayIssue_config {e : BitVec 8} {p : Port} : mayIssue (.config e) p = true ↔ p = .host := by
  cases p <;> simp [mayIssue]

theorem mayIssue_push {d : BitVec 16} {p : Port} : mayIssue (.push d) p = true ↔ p = .producer := by
  cases p <;> simp [mayIssue]

theorem mayIssue_pop {p : Port} : mayIssue .pop p = true ↔ p = .consumer := by
  cases p <;> simp [mayIssue]

theorem exponentOk_iff (e : BitVec 8) : exponentOk e = true ↔ 2 ≤ e.toNat ∧ e.toNat ≤ 16 := by
  rw [exponentOk, Bool.and_eq_true, decide_eq_true_iff, decide_eq_true_iff]
  rfl

/-- Everything a command can do: it always answers a next state, and that state is one of these. -/
theorem exec_cases (i : Instr) (s : State) : ∃ t, exec i s = .next t ∧
    ((∃ st, st ≠ .ok ∧ t = respond st false 0#32 s) ∨
     (∃ e, i = .config e ∧ s.port = .host ∧ exponentOk e = true ∧ t = respond .ok false 0#32 (configure e s)) ∨
     (∃ d, i = .push d ∧ s.port = .producer ∧ itemTooWide s.itemBits d = false ∧
        t = respond .ok false 0#32 (appendItem d s)) ∨
     (i = .pop ∧ s.port = .consumer ∧ isEmpty s = true ∧ t = respond .ok false 0#32 s) ∨
     (i = .pop ∧ s.port = .consumer ∧ isEmpty s = false ∧
        t = respond .ok true (itemValue (oldestItem s)) (advanceRd s)) ∨
     ((i = .len ∧ t = respond .ok true (occupancy s) s) ∨ (i = .cap ∧ t = respond .ok true (capacity s) s) ∨
      (i = .full ∧ t = respond .ok true (flagValue (isFull s)) s) ∨
      (i = .free ∧ t = respond .ok true (flagValue (hasFree s)) s))) := by
  have refusal : ∀ body, mayIssue i s.port = false →
      ∃ t, onAllowedPort i s body = .next t ∧ ∃ st, st ≠ Status.ok ∧ t = respond st false 0#32 s :=
    fun body h => ⟨_, onAllowedPort_refused h body, .illegalCommand, by decide, rfl⟩
  cases hm : mayIssue i s.port with
  | false =>
    cases i <;> obtain ⟨t, h, hst⟩ := refusal _ hm <;> exact ⟨t, h, .inl hst⟩
  | true =>
    cases i with
    | config e =>
      have hp := mayIssue_config.1 hm
      simp only [exec, execConfig, onAllowedPort_allowed hm]
      cases he : exponentOk e
      · exact ⟨_, rfl, .inl ⟨.invalidCapacity, by decide, rfl⟩⟩
      · exact ⟨_, rfl, .inr (.inl ⟨e, rfl, hp, he, rfl⟩)⟩
    | push d =>
      have hp := mayIssue_push.1 hm
      simp only [exec, execPush, onAllowedPort_allowed hm]
      cases hd : itemTooWide s.itemBits d
      · exact ⟨_, rfl, .inr (.inr (.inl ⟨d, rfl, hp, hd, rfl⟩))⟩
      · exact ⟨_, rfl, .inl ⟨.illegalCommand, by decide, rfl⟩⟩
    | pop =>
      have hp := mayIssue_pop.1 hm
      simp only [exec, execPop, onAllowedPort_allowed hm]
      by_cases he : isEmpty s = true
      · exact ⟨_, if_pos he, .inr (.inr (.inr (.inl ⟨trivial, hp, he, rfl⟩)))⟩
      · exact ⟨_, if_neg he, .inr (.inr (.inr (.inr (.inl ⟨trivial, hp, by simpa using he, rfl⟩))))⟩
    | len => exact ⟨_, rfl, .inr (.inr (.inr (.inr (.inr (.inl ⟨rfl, rfl⟩)))))⟩
    | cap => exact ⟨_, rfl, .inr (.inr (.inr (.inr (.inr (.inr (.inl ⟨rfl, rfl⟩))))))⟩
    | full => exact ⟨_, rfl, .inr (.inr (.inr (.inr (.inr (.inr (.inr (.inl ⟨rfl, rfl⟩)))))))⟩
    | free => exact ⟨_, rfl, .inr (.inr (.inr (.inr (.inr (.inr (.inr (.inr ⟨rfl, rfl⟩)))))))⟩

/-- A word that decodes is executed on its port. -/
theorem issue_ok {w : Word} {i : Instr} (h : decode w = .ok i) (p : Port) (s : State) :
    issue p w s = exec i (withPort p s) := by
  simp [issue, h]

/-- A word that is no command is answered ILLEGAL_COMMAND. -/
theorem issue_error {w : Word} {r : Reject} (h : decode w = .error r) (p : Port) (s : State) :
    issue p w s = .next (respond .illegalCommand false 0#32 (withPort p s)) := by
  simp [issue, h, raise]

end Sys2Proof.Machine
end

