-- ==== Sys2Proof/Laws/Window.lean ====
section
/-! SUPPORT. The window of items held and what the shared operations do to it: an eviction and a POP drop its head, an append to a
buffer that is not full adds at its end, CONFIG and reset empty it; and the invariant under each of them. -/

namespace Sys2Proof.Machine

@[simp] theorem contents_length (s : State) : (contents s).length = (occupancy s).toNat := by
  simp [contents]

/-- The window depends on these fields only. -/
theorem contents_congr {s t : State} (hw : t.itemBits = s.itemBits) (he : t.exp = s.exp) (hr : t.rd = s.rd)
    (hwr : t.wr = s.wr) (hm : t.store = s.store) (hera : t.era = s.era) : contents t = contents s := by
  simp only [contents, occupancy, slotAt, he, hr, hwr, storeRead_congr hw hm hera]

/-- The invariant depends on these fields only. -/
theorem inv_congr {s t : State} (hw : t.itemBits = s.itemBits) (he : t.exp = s.exp) (hr : t.rd = s.rd)
    (hwr : t.wr = s.wr) (hm : t.store = s.store) (h : BlockInv s) : BlockInv t := by
  obtain ⟨h1, h2, h3, h4⟩ := h
  constructor <;> simp only [occupancy, slotAt, hw, he, hr, hwr, hm] at * <;> assumption

theorem respond_contents (st : Status) (vld : Bool) (val : Word) (s : State) :
    contents (respond st vld val s) = contents s :=
  contents_congr rfl rfl rfl rfl rfl rfl

theorem respond_inv (st : Status) (vld : Bool) (val : Word) {s : State} (h : BlockInv s) : BlockInv (respond st vld val s) :=
  inv_congr (s := s) rfl rfl rfl rfl rfl h

theorem withPort_contents (p : Port) (s : State) : contents (withPort p s) = contents s :=
  contents_congr rfl rfl rfl rfl rfl rfl

theorem withPort_inv (p : Port) {s : State} (h : BlockInv s) : BlockInv (withPort p s) :=
  inv_congr (s := s) rfl rfl rfl rfl rfl h

/-! ### Capacity and the flags as facts about numbers -/

theorem capacity_toNat (s : State) : (capacity s).toNat = 2 ^ s.exp.toNat := capacityOf_toNat s.exp

theorem isEmpty_iff_occupancy (s : State) : isEmpty s = true ↔ (occupancy s).toNat = 0 := by
  simp [isEmpty, ← BitVec.toNat_inj]

theorem isFull_iff_occupancy (s : State) : isFull s = true ↔ (occupancy s).toNat = 2 ^ s.exp.toNat := by
  simp [isFull, ← BitVec.toNat_inj, capacity_toNat]

theorem hasFree_iff_occupancy (s : State) : hasFree s = true ↔ (occupancy s).toNat < 2 ^ s.exp.toNat := by
  simp [hasFree, BitVec.lt_def, capacity_toNat]

/-- The bounds that the invariant puts on CAP and on the occupancy. -/
theorem BlockInv.bounds {s : State} (h : BlockInv s) :
    4 ≤ 2 ^ s.exp.toNat ∧ 2 ^ s.exp.toNat ≤ 65536 ∧ (occupancy s).toNat ≤ 2 ^ s.exp.toNat :=
  ⟨Nat.pow_le_pow_right (n := 2) (i := 2) (by decide) h.expLegal.1, two_pow_exp_le h.expLegal.2, h.occupancyLe⟩

/-- `wr` is the occupancy above `rd`. -/
theorem rd_add_occupancy (s : State) : s.rd + BitVec.ofNat 32 (occupancy s).toNat = s.wr := by
  rw [BitVec.ofNat_toNat, BitVec.setWidth_eq, occupancy, BitVec.add_comm, BitVec.sub_add_cancel]

theorem slotAt_occupancy (s : State) : slotAt s (occupancy s).toNat = slotOf s.exp s.wr := by
  rw [slotAt, rd_add_occupancy]

/-! ### Dropping the oldest item -/

theorem occupancy_advanceRd {s : State} (h : (occupancy s).toNat ≠ 0) :
    (occupancy (advanceRd s)).toNat = (occupancy s).toNat - 1 := by
  have : occupancy (advanceRd s) = occupancy s - 1#32 := by simp [occupancy, BitVec.sub_sub]
  have h1 : (1#32).toNat = 1 := rfl
  have := (occupancy s).isLt
  rw [‹occupancy (advanceRd s) = _›, BitVec.toNat_sub, h1]
  omega

theorem slotAt_advanceRd (s : State) (k : Nat) : slotAt (advanceRd s) k = slotAt s (k + 1) := by
  have : s.rd + 1#32 + BitVec.ofNat 32 k = s.rd + BitVec.ofNat 32 (k + 1) := by
    rw [BitVec.add_assoc, Nat.add_comm k 1, BitVec.ofNat_add]
  rw [slotAt, slotAt, advanceRd_rd, advanceRd_exp, this]

theorem storeRead_advanceRd (a : BitVec 16) (s : State) : storeRead a (advanceRd s) = storeRead a s :=
  storeRead_congr rfl rfl rfl a

theorem slotAt_zero (s : State) : slotAt s 0 = slotOf s.exp s.rd := by simp [slotAt]

/-- `rd <- rd +32 1` on a buffer that holds an item drops the oldest one. -/
theorem contents_advanceRd {s : State} (h : (occupancy s).toNat ≠ 0) :
    contents s = oldestItem s :: contents (advanceRd s) := by
  obtain ⟨n, hn⟩ := Nat.exists_eq_succ_of_ne_zero h
  have hn' : (occupancy (advanceRd s)).toNat = n := by rw [occupancy_advanceRd h, hn]; rfl
  simp only [contents, hn, hn', Nat.succ_eq_add_one, List.range_succ_eq_map, List.map_cons, List.map_map, oldestItem,
    ← slotAt_zero]
  congr 1
  apply List.map_congr_left
  intro k _
  simp only [Function.comp, slotAt_advanceRd, storeRead_advanceRd, Nat.succ_eq_add_one]

theorem advanceRd_inv {s : State} (h : BlockInv s) (h0 : (occupancy s).toNat ≠ 0) : BlockInv (advanceRd s) where
  expLegal := h.expLegal
  occupancyLe := by
    have := h.occupancyLe
    rw [occupancy_advanceRd h0, advanceRd_exp]
    omega
  storeCanonical := h.storeCanonical
  windowWritten := by
    intro k hk
    rw [occupancy_advanceRd h0] at hk
    rw [slotAt_advanceRd, advanceRd_store]
    exact h.windowWritten (k + 1) (by omega)

/-! ### Appending to a buffer that is not full -/

/-- The slot write and the `wr` advance of PUSH, after the eviction (41_push.md R90). -/
theorem appendItem_eq (d : BitVec 16) (s : State) :
    appendItem d s =
      advanceWr (storeWrite (slotOf (evictIfFull s).exp (evictIfFull s).wr) (itemOf (evictIfFull s).itemBits d)
        (evictIfFull s)) := by
  simp only [appendItem, evictIfFull]
  split <;> rfl

theorem occupancy_put {s : State} (hlt : (occupancy s).toNat < 2 ^ s.exp.toNat) (he : s.exp.toNat ≤ 16)
    (a : BitVec 16) (v : Item) :
    (occupancy (advanceWr (storeWrite a v s))).toNat = (occupancy s).toNat + 1 := by
  have hc := two_pow_exp_le he
  have h1 : occupancy (advanceWr (storeWrite a v s)) = occupancy s + 1#32 := by
    simp only [occupancy, advanceWr_wr, storeWrite_wr, advanceWr_rd, storeWrite_rd]
    rw [BitVec.sub_eq_add_neg, BitVec.sub_eq_add_neg, BitVec.add_assoc, BitVec.add_comm 1#32, ← BitVec.add_assoc]
  have h2 : (1#32).toNat = 1 := rfl
  rw [h1, BitVec.toNat_add, h2]
  omega

theorem slotAt_put (s : State) (a : BitVec 16) (v : Item) (k : Nat) :
    slotAt (advanceWr (storeWrite a v s)) k = slotAt s k := rfl

/-- No slot of the window is the slot that PUSH writes on a buffer that is not full. -/
theorem slotAt_ne_slotOf_wr {s : State} (hlt : (occupancy s).toNat < 2 ^ s.exp.toNat) (he : s.exp.toNat ≤ 16)
    {k : Nat} (hk : k < (occupancy s).toNat) : slotAt s k ≠ slotOf s.exp s.wr := by
  rw [← slotAt_occupancy]
  intro h
  exact absurd (slotOf_add_inj he (by omega) hlt h) (by omega)

theorem contents_put {s : State} (hlt : (occupancy s).toNat < 2 ^ s.exp.toNat) (he : s.exp.toNat ≤ 16) (v : Item) :
    contents (advanceWr (storeWrite (slotOf s.exp s.wr) v s)) = contents s ++ [itemOf s.itemBits v] := by
  have hr : ∀ a b, storeRead a (advanceWr (storeWrite b v s)) = storeRead a (storeWrite b v s) :=
    fun a b => storeRead_congr rfl rfl rfl a
  simp only [contents, occupancy_put hlt he, List.range_succ, List.map_append, List.map_cons, List.map_nil, slotAt_put, hr,
    slotAt_occupancy, storeRead_storeWrite_same]
  congr 1
  apply List.map_congr_left
  intro k hk
  exact storeRead_storeWrite_other (slotAt_ne_slotOf_wr hlt he (List.mem_range.1 hk)) v s

theorem put_inv {s : State} (h : BlockInv s) (hlt : (occupancy s).toNat < 2 ^ s.exp.toNat) (v : Item) :
    BlockInv (advanceWr (storeWrite (slotOf s.exp s.wr) v s)) where
  expLegal := h.expLegal
  occupancyLe := by
    rw [occupancy_put hlt h.expLegal.2]
    exact hlt
  storeCanonical := storeWrite_wf _ _ h.storeCanonical
  windowWritten := by
    intro k hk
    rw [occupancy_put hlt h.expLegal.2] at hk
    rw [slotAt_put, advanceWr_store, storeWrite_store]
    by_cases hk' : k = (occupancy s).toNat
    · rw [hk', slotAt_occupancy, storeFind_insert_same]
      rfl
    · have hk2 : k < (occupancy s).toNat := by omega
      have hne : (slotAt s k).toNat ≠ (slotOf s.exp s.wr).toNat := fun he =>
        slotAt_ne_slotOf_wr hlt h.expLegal.2 hk2 (BitVec.eq_of_toNat_eq he)
      rw [storeFind_insert_other hne]
      exact h.windowWritten k hk2

/-! ### Overwrite-oldest -/

theorem evictIfFull_inv {s : State} (h : BlockInv s) : BlockInv (evictIfFull s) := by
  unfold evictIfFull
  split
  · rename_i hf
    have := h.bounds
    exact advanceRd_inv h (by rw [isFull_iff_occupancy] at hf; omega)
  · exact h

/-- After the eviction there is room. -/
theorem evictIfFull_lt {s : State} (h : BlockInv s) :
    (occupancy (evictIfFull s)).toNat < 2 ^ (evictIfFull s).exp.toNat := by
  have hb := h.bounds
  unfold evictIfFull
  split
  · rename_i hf
    rw [isFull_iff_occupancy] at hf
    rw [occupancy_advanceRd (by omega), advanceRd_exp]
    omega
  · rename_i hf
    rw [isFull_iff_occupancy] at hf
    omega

@[simp] theorem evictIfFull_itemBits (s : State) : (evictIfFull s).itemBits = s.itemBits := by
  unfold evictIfFull; split <;> rfl

theorem contents_evictIfFull {s : State} (h : BlockInv s) :
    contents (evictIfFull s) = (contents s).drop ((contents s).length + 1 - 2 ^ s.exp.toNat) := by
  have hb := h.bounds
  unfold evictIfFull
  split
  · rename_i hf
    rw [isFull_iff_occupancy] at hf
    rw [contents_length, hf, Nat.add_sub_cancel_left, contents_advanceRd (s := s) (by omega), List.drop_succ_cons,
      List.drop_zero]
  · rename_i hf
    rw [isFull_iff_occupancy] at hf
    have : (contents s).length + 1 - 2 ^ s.exp.toNat = 0 := by rw [contents_length]; omega
    rw [this, List.drop_zero]

theorem appendItem_inv {s : State} (h : BlockInv s) (d : BitVec 16) : BlockInv (appendItem d s) := by
  rw [appendItem_eq]
  exact put_inv (evictIfFull_inv h) (evictIfFull_lt h) _

/-- What PUSH does to the window: the item at the end, and only the newest CAP items kept. -/
theorem contents_appendItem {s : State} (h : BlockInv s) (d : BitVec 16) :
    contents (appendItem d s) = keepNewest (2 ^ s.exp.toNat) (contents s ++ [itemOf s.itemBits d]) := by
  have hb := h.bounds
  rw [appendItem_eq, contents_put (evictIfFull_lt h) (evictIfFull_inv h).expLegal.2, contents_evictIfFull h,
    evictIfFull_itemBits, itemOf_itemOf, keepNewest, List.length_append, List.length_singleton, List.drop_append_of_le_length]
  rw [contents_length]
  omega

/-! ### Emptying -/

theorem contents_configure (e : BitVec 8) (s : State) : contents (configure e s) = [] := by
  simp [contents, occupancy]

theorem configure_inv {s : State} (h : BlockInv s) {e : BitVec 8} (he : exponentOk e = true) : BlockInv (configure e s) := by
  obtain ⟨h2, h16⟩ := (exponentOk_iff e).1 he
  have hx : (e.setWidth 5).toNat = e.toNat := by
    rw [BitVec.toNat_setWidth]
    omega
  exact
    { expLegal := by rw [configure_exp, hx]; exact ⟨h2, h16⟩
      occupancyLe := by simp [occupancy]
      storeCanonical := h.storeCanonical
      windowWritten := by intro k hk; simp [occupancy] at hk }

theorem resetBlock_inv (s : State) : BlockInv (resetBlock s) where
  expLegal := by rw [resetBlock_exp]; decide
  occupancyLe := by simp [occupancy]
  storeCanonical := rfl
  windowWritten := by intro k hk; simp [occupancy] at hk

theorem contents_resetBlock (s : State) : contents (resetBlock s) = [] := by
  simp [contents, occupancy]

end Sys2Proof.Machine
end

