-- ==== Sys2Proof/Laws/Issue.lean ====
section
/-! SUPPORT. Everything one command of a port can do, with what enters and leaves the buffer: the inversion lemma of `issue` from which the
facts about schedules are derived. -/

namespace Sys2Proof.Machine

theorem configures_error {w : Word} {r : Reject} (h : decode w = .error r) (p : Port) : configures p w = false := by
  simp [configures, h]

theorem arrival_error {w : Word} {r : Reject} (h : decode w = .error r) (width : ItemWidth) (p : Port) :
    arrival width p w = [] := by
  simp [arrival, h]

theorem departure_error {w : Word} {r : Reject} (h : decode w = .error r) (p : Port) (s : State) :
    departure p w s = [] := by
  simp [departure, h]

/-- Everything a command of port `p` can do. -/
theorem issue_cases (p : Port) (w : Word) (s : State) : ∃ t, issue p w s = .next t ∧
    ((∃ st, st ≠ .ok ∧ t = respond st false 0#32 (withPort p s) ∧ configures p w = false ∧
        arrival s.itemBits p w = [] ∧ departure p w s = []) ∨
     (∃ e, decode w = .ok (.config e) ∧ p = .host ∧ exponentOk e = true ∧
        t = respond .ok false 0#32 (configure e (withPort p s)) ∧ configures p w = true ∧
        arrival s.itemBits p w = [] ∧ departure p w s = []) ∨
     (∃ d, decode w = .ok (.push d) ∧ p = .producer ∧ itemTooWide s.itemBits d = false ∧
        t = respond .ok false 0#32 (appendItem d (withPort p s)) ∧ configures p w = false ∧
        arrival s.itemBits p w = [itemOf s.itemBits d] ∧
          departure p w s = if isFull s then [(oldestItem s, .evicted)] else []) ∨
     (decode w = .ok .pop ∧ p = .consumer ∧ isEmpty s = true ∧ t = respond .ok false 0#32 (withPort p s) ∧
        configures p w = false ∧ arrival s.itemBits p w = [] ∧ departure p w s = []) ∨
     (decode w = .ok .pop ∧ p = .consumer ∧ isEmpty s = false ∧
        t = respond .ok true (itemValue (oldestItem s)) (advanceRd (withPort p s)) ∧
        configures p w = false ∧ arrival s.itemBits p w = [] ∧ departure p w s = [(oldestItem s, .popped)]) ∨
     (∃ v, t = respond .ok true v (withPort p s) ∧ configures p w = false ∧ arrival s.itemBits p w = [] ∧
        departure p w s = [] ∧
        ((decode w = .ok .len ∧ v = occupancy s) ∨ (decode w = .ok .cap ∧ v = capacity s) ∨
         (decode w = .ok .full ∧ v = flagValue (isFull s)) ∨ (decode w = .ok .free ∧ v = flagValue (hasFree s))))) := by
  cases hd : decode w with
  | error r =>
    exact ⟨_, issue_error hd p s, .inl ⟨.illegalCommand, by decide, rfl, configures_error hd p, arrival_error hd _ p,
      departure_error hd p s⟩⟩
  | ok i =>
    rw [issue_ok hd]
    cases i with
    | config e =>
      have harr : arrival s.itemBits p w = [] := by simp [arrival, hd]
      have hdep : departure p w s = [] := by simp [departure, hd]
      cases hm : mayIssue (.config e) p
      · refine ⟨_, onAllowedPort_refused (s := withPort p s) hm _, .inl ⟨_, by decide, rfl, ?_, harr, hdep⟩⟩
        cases p <;> simp_all [configures, mayIssue]
      · simp only [exec, execConfig, onAllowedPort_allowed (s := withPort p s) hm]
        cases he : exponentOk e
        · exact ⟨_, rfl, .inl ⟨.invalidCapacity, by decide, rfl, by simp [configures, hd, he], harr, hdep⟩⟩
        · have hp := mayIssue_config.1 hm
          exact ⟨_, rfl, .inr (.inl ⟨e, rfl, hp, he, rfl, by simp [configures, hd, he, hp], harr, hdep⟩)⟩
    | push d =>
      have hc : configures p w = false := by simp [configures, hd]
      cases hm : mayIssue (.push d) p
      · refine ⟨_, onAllowedPort_refused (s := withPort p s) hm _, .inl ⟨_, by decide, rfl, hc, ?_, ?_⟩⟩
        · cases p <;> simp_all [arrival, mayIssue]
        · cases p <;> simp_all [departure, mayIssue]
      · simp only [exec, execPush, onAllowedPort_allowed (s := withPort p s) hm, withPort_itemBits]
        have hp := mayIssue_push.1 hm
        by_cases hw : itemTooWide s.itemBits d = true
        · exact ⟨_, if_pos hw, .inl ⟨.illegalCommand, by decide, rfl, hc, by simp [arrival, hd, hw],
            by simp [departure, hd, hw]⟩⟩
        · have hw' : itemTooWide s.itemBits d = false := by simpa using hw
          exact ⟨_, if_neg hw, .inr (.inr (.inl ⟨d, rfl, hp, hw', rfl, hc, by simp [arrival, hd, hp, hw'],
            by simp [departure, hd, hp, hw']⟩))⟩
    | pop =>
      have hc : configures p w = false := by simp [configures, hd]
      have harr : arrival s.itemBits p w = [] := by simp [arrival, hd]
      cases hm : mayIssue .pop p
      · refine ⟨_, onAllowedPort_refused (s := withPort p s) hm _, .inl ⟨_, by decide, rfl, hc, harr, ?_⟩⟩
        cases p <;> simp_all [departure, mayIssue]
      · simp only [exec, execPop, onAllowedPort_allowed (s := withPort p s) hm]
        have hp := mayIssue_pop.1 hm
        have hpe : isEmpty (withPort p s) = isEmpty s := rfl
        rw [hpe]
        by_cases he : isEmpty s = true
        · exact ⟨_, if_pos he, .inr (.inr (.inr (.inl ⟨trivial, hp, he, rfl, hc, harr, by simp [departure, hd, he]⟩)))⟩
        · have he' : isEmpty s = false := by simpa using he
          exact ⟨_, if_neg he, .inr (.inr (.inr (.inr (.inl ⟨trivial, hp, he', rfl, hc, harr,
            by simp [departure, hd, he', hp]⟩))))⟩
    | len =>
      exact ⟨_, rfl, .inr (.inr (.inr (.inr (.inr ⟨_, rfl, by simp [configures, hd], by simp [arrival, hd],
        by simp [departure, hd], .inl ⟨rfl, rfl⟩⟩))))⟩
    | cap =>
      exact ⟨_, rfl, .inr (.inr (.inr (.inr (.inr ⟨_, rfl, by simp [configures, hd], by simp [arrival, hd],
        by simp [departure, hd], .inr (.inl ⟨rfl, rfl⟩)⟩))))⟩
    | full =>
      exact ⟨_, rfl, .inr (.inr (.inr (.inr (.inr ⟨_, rfl, by simp [configures, hd], by simp [arrival, hd],
        by simp [departure, hd], .inr (.inr (.inl ⟨rfl, rfl⟩))⟩))))⟩
    | free =>
      exact ⟨_, rfl, .inr (.inr (.inr (.inr (.inr ⟨_, rfl, by simp [configures, hd], by simp [arrival, hd],
        by simp [departure, hd], .inr (.inr (.inr ⟨rfl, rfl⟩))⟩))))⟩

end Sys2Proof.Machine
end

