-- ==== Sys2Proof/Laws/PerInstr.lean ====
section
/-! SUPPORT. The fields of an assembled command word (30_encoding.md R60), and the family `EncodingFields`: every command's word
carries its opcode, zero in RSV, and zero in ARG and DATA where R65 asks for it. -/

namespace Sys2Proof

theorem opField_packWord (d : BitVec 16) (a : BitVec 8) (o : BitVec 4) : opField (packWord d a o) = o := by
  apply BitVec.eq_of_getElem_eq
  intro k hk
  simp only [opField, packWord, BitVec.getElem_extractLsb', BitVec.getLsbD_append, Nat.zero_add]
  simp [show k < 8 by omega, show ¬ 16 ≤ k by omega, hk, BitVec.getLsbD_eq_getElem]

theorem rsvField_packWord (d : BitVec 16) (a : BitVec 8) (o : BitVec 4) : rsvField (packWord d a o) = 0x0#4 := by
  apply BitVec.eq_of_getElem_eq
  intro k hk
  simp only [rsvField, packWord, BitVec.getElem_extractLsb', BitVec.getLsbD_append]
  simp [show 4 + k < 8 by omega, show 4 + k < 16 by omega]

theorem argField_packWord (d : BitVec 16) (a : BitVec 8) (o : BitVec 4) : argField (packWord d a o) = a := by
  apply BitVec.eq_of_getElem_eq
  intro k hk
  simp only [argField, packWord, BitVec.getElem_extractLsb', BitVec.getLsbD_append]
  simp [show 8 + k < 16 by omega, show ¬ (8 + k < 8) by omega, hk, BitVec.getLsbD_eq_getElem]

theorem dataField_packWord (d : BitVec 16) (a : BitVec 8) (o : BitVec 4) : dataField (packWord d a o) = d := by
  apply BitVec.eq_of_getElem_eq
  intro k hk
  simp only [dataField, packWord, BitVec.getElem_extractLsb', BitVec.getLsbD_append]
  simp [show ¬ (16 + k < 16) by omega, hk, BitVec.getLsbD_eq_getElem]

namespace Laws.EncodingFields

/-- The fields of the word of `i`: its opcode; RSV zero; ARG zero but in CONFIG; DATA zero but in PUSH (30_encoding.md R65). -/
def Statement (i : Instr) : Prop :=
  opField (encode i) = opcodeOf i ∧ rsvField (encode i) = 0x0#4 ∧
    (opcodeOf i ≠ 0x1#4 → argField (encode i) = 0x0#8) ∧ (opcodeOf i ≠ 0x2#4 → dataField (encode i) = 0x0#16)

theorem config (e : BitVec 8) : Statement (.config e) :=
  ⟨opField_packWord _ _ _, rsvField_packWord _ _ _, fun h => absurd rfl h, fun _ => dataField_packWord _ _ _⟩

theorem push (data : BitVec 16) : Statement (.push data) :=
  ⟨opField_packWord _ _ _, rsvField_packWord _ _ _, fun _ => argField_packWord _ _ _, fun h => absurd rfl h⟩

theorem pop : Statement .pop :=
  ⟨opField_packWord _ _ _, rsvField_packWord _ _ _, fun _ => argField_packWord _ _ _, fun _ => dataField_packWord _ _ _⟩

theorem len : Statement .len :=
  ⟨opField_packWord _ _ _, rsvField_packWord _ _ _, fun _ => argField_packWord _ _ _, fun _ => dataField_packWord _ _ _⟩

theorem cap : Statement .cap :=
  ⟨opField_packWord _ _ _, rsvField_packWord _ _ _, fun _ => argField_packWord _ _ _, fun _ => dataField_packWord _ _ _⟩

theorem full : Statement .full :=
  ⟨opField_packWord _ _ _, rsvField_packWord _ _ _, fun _ => argField_packWord _ _ _, fun _ => dataField_packWord _ _ _⟩

theorem free : Statement .free :=
  ⟨opField_packWord _ _ _, rsvField_packWord _ _ _, fun _ => argField_packWord _ _ _, fun _ => dataField_packWord _ _ _⟩

end Laws.EncodingFields

end Sys2Proof
end

