-- ==== Sys2Proof/Laws/Step.lean ====
section
/-! SUPPORT. What one command leaves alone, and everything one step can do: the inversion lemma of `step` that facts about runs cite
instead of unfolding the schedule. -/

namespace Sys2Proof.Machine

theorem appendItem_port (d : BitVec 16) (s : State) : (appendItem d s).port = s.port := by
  simp only [appendItem, evictIfFull]
  split <;> rfl

/-- A command writes neither the parameter, the era, the agents nor the schedule; it leaves `port` at its own port. -/
theorem issue_frame {p : Port} {w : Word} {s t : State} (h : issue p w s = .next t) :
    t.itemBits = s.itemBits ∧ t.era = s.era ∧ t.producer = s.producer ∧ t.consumer = s.consumer ∧ t.host = s.host ∧
      t.turns = s.turns ∧ t.port = p := by
  obtain ⟨t', h', hc⟩ := issue_cases p w s
  rw [h] at h'
  cases h'
  rcases hc with ⟨_, _, rfl, _⟩ | ⟨_, _, _, _, rfl, _⟩ | ⟨_, _, _, _, rfl, _⟩ | ⟨_, _, _, rfl, _⟩ | ⟨_, _, _, rfl, _⟩ | ⟨_, rfl, _⟩
  all_goals try exact ⟨rfl, rfl, rfl, rfl, rfl, rfl, rfl⟩
  simp only [respond, appendItem, evictIfFull]
  split <;> exact ⟨rfl, rfl, rfl, rfl, rfl, rfl, rfl⟩

/-- A command leaves its response, for its own port. -/
theorem issue_resp {p : Port} {w : Word} {s t : State} (h : issue p w s = .next t) : ∃ r, t.resp = some (p, r) := by
  obtain ⟨t', h', hc⟩ := issue_cases p w s
  rw [h] at h'
  cases h'
  rcases hc with ⟨_, _, rfl, _⟩ | ⟨_, _, _, _, rfl, _⟩ | ⟨d, _, _, _, rfl, _⟩ | ⟨_, _, _, rfl, _⟩ | ⟨_, _, _, rfl, _⟩ | ⟨_, rfl, _⟩
  all_goals try exact ⟨_, rfl⟩
  exact ⟨⟨.ok, false, 0#32⟩, by rw [respond, appendItem_port]; rfl⟩

theorem handBack_next {p : Port} {r : Response} {a : Answer} {t : State} (ha : a = .next t) (hr : t.resp = some (p, r)) :
    handBack p a = .next (deliver p r t) := by
  simp [ha, handBack, hr]

/-- Everything a step can do: nothing, with no turn left; a reset; a turn of a port that presents nothing; or a command of the
port served, its response handed to that port's agent. -/
theorem step_cases (s : State) : ∃ t, step s = .next t ∧
    ((s.turns = [] ∧ t = s) ∨
     (∃ us, s.turns = .reset :: us ∧ t = resetBlock (withTurns us s)) ∨
     (∃ p us, s.turns = .port p :: us ∧ presented p (settle p (withTurns us s)) = none ∧
        t = settle p (withTurns us s)) ∨
     (∃ p us w u r, s.turns = .port p :: us ∧ presented p (settle p (withTurns us s)) = some w ∧
        issue p w (settle p (withTurns us s)) = .next u ∧ u.resp = some (p, r) ∧ t = deliver p r u)) := by
  unfold step takeTurn
  cases hs : s.turns with
  | nil => exact ⟨_, rfl, .inl ⟨rfl, rfl⟩⟩
  | cons a us =>
    cases a with
    | reset => exact ⟨_, rfl, .inr (.inl ⟨us, rfl, rfl⟩)⟩
    | port p =>
      simp only [servePort]
      cases hp : presented p (settle p (withTurns us s)) with
      | none => exact ⟨_, rfl, .inr (.inr (.inl ⟨p, us, rfl, hp, rfl⟩))⟩
      | some w =>
        obtain ⟨u, hu, _⟩ := issue_cases p w (settle p (withTurns us s))
        obtain ⟨r, hr⟩ := issue_resp hu
        exact ⟨_, handBack_next hu hr, .inr (.inr (.inr ⟨p, us, w, u, r, rfl, hp, hu, hr, rfl⟩))⟩

end Sys2Proof.Machine
end

