-- ==== Sys2Proof/Tests/Slice0.lean ====
section
/-! SUPPORT. Small tests, each with its expected result taken from the spec's text or its vectors (95_test_vectors.md), and for every
statement with hypotheses a witness that meets them, clause by clause. -/

namespace Sys2Proof.Machine.Tests

/-! ### Helpers -/

/-- A block state: width, exponent, counters and the slots written; the rest as after reset. -/
def block (width : ItemWidth) (e : BitVec 5) (rd wr : Counter) (slots : Store) : State :=
  { State.reset with itemBits := width, exp := e, rd := rd, wr := wr, store := slots }

/-- The next state of an answer. -/
def stateOf : Answer → Option State
  | .next t => some t
  | .fault _ => none
  | .refused _ => none

/-- The state's registers after a command, with the response it left. -/
def summary (a : Answer) : Option (BitVec 5 × Counter × Counter × Option (Port × Response)) :=
  (stateOf a).map fun t => (t.exp, t.rd, t.wr, t.resp)

/-- The items held after a command. -/
def itemsAfter (a : Answer) : Option (List Item) := (stateOf a).map contents

theorem next_of_isSome {a : Answer} (h : (stateOf a).isSome = true) : ∃ t, a = .next t := by
  cases a with
  | next t => exact ⟨t, rfl⟩
  | fault r => cases h
  | refused r => cases h

theorem inv_of_checks {s : State} (h : (2 ≤ s.exp.toNat ∧ s.exp.toNat ≤ 16) ∧ (occupancy s).toNat ≤ 2 ^ s.exp.toNat ∧
    storeWf s.itemBits s.store = true ∧
    ∀ k, k < (occupancy s).toNat → (storeFind (slotAt s k).toNat s.store).isSome = true) : BlockInv s :=
  ⟨h.1, h.2.1, h.2.2.1, h.2.2.2⟩

theorem items_fit {width : ItemWidth} {l : List Item} (h : (l.all fun b => decide (b.toNat < 2 ^ width.bits)) = true) :
    ∀ b ∈ l, b.toNat < 2 ^ width.bits := by
  simpa using h

/-- V-P5's kind of state: full, the window across the counter wrap; it holds 0x41, 0x42, 0x43, 0x44. -/
def full4 : State := block .w8 2#5 0xFFFFFFFF#32 3#32 [(0, 0x42#16), (1, 0x43#16), (2, 0x44#16), (3, 0x41#16)]

/-- One item below CAP. -/
def three : State := block .w8 2#5 0#32 3#32 [(0, 1#16), (1, 2#16), (2, 3#16)]

/-- One item, `wr` at the largest counter value. -/
def one : State := block .w8 2#5 0xFFFFFFFE#32 0xFFFFFFFF#32 [(2, 0xFF#16)]

/-- One item, `rd` at the largest counter value, 16-bit items, the largest capacity. -/
def oneWide : State := block .w16 16#5 0xFFFFFFFF#32 0#32 [(65535, 0xFFFF#16)]

/-- Empty, both counters at the largest value. -/
def none4 : State := block .w8 2#5 0xFFFFFFFF#32 0xFFFFFFFF#32 []

/-- Full with the largest capacity (V-S4); its slots are not needed. -/
def full16 : State := block .w8 16#5 0#32 65536#32 []

theorem full4_inv : BlockInv full4 := inv_of_checks (by decide)
theorem three_inv : BlockInv three := inv_of_checks (by decide)
theorem one_inv : BlockInv one := inv_of_checks (by decide)
theorem oneWide_inv : BlockInv oneWide := inv_of_checks (by decide)
theorem none4_inv : BlockInv none4 := inv_of_checks (by decide)

theorem withPort_full4_inv (p : Port) : BlockInv (withPort p full4) := withPort_inv p full4_inv

/-! ### Well-formedness -/

theorem test_push_item_too_wide_refused : (Instr.push 0x100#16).wellFormed .w8 = false := by decide
theorem test_push_largest_item_admitted :
    (Instr.push 0xFF#16).wellFormed .w8 = true ∧ (Instr.push 0xFFFF#16).wellFormed .w16 = true := by decide

/-! ### Decoding: words written out from 30_encoding.md R60, R62 -/

/-- DATA 0, ARG 0x10 = 16, RSV 0, OP 1. -/
theorem test_decode_config : decode 0b00000000000000000001000000000001#32 = .ok (.config 16#8) := by decide

/-- DATA 0x1234, ARG 0, RSV 0, OP 2. -/
theorem test_decode_push : decode 0b00010010001101000000000000000010#32 = .ok (.push 0x1234#16) := by decide

theorem test_decode_pop : decode 0b00000000000000000000000000000011#32 = .ok .pop := by decide
theorem test_decode_len : decode 0b00000000000000000000000000000100#32 = .ok .len := by decide
theorem test_decode_cap : decode 0b00000000000000000000000000000101#32 = .ok .cap := by decide
theorem test_decode_full : decode 0b00000000000000000000000000000110#32 = .ok .full := by decide
theorem test_decode_free : decode 0b00000000000000000000000000000111#32 = .ok .free := by decide

/-- 95_test_vectors.md V-R1 to V-R4, V-C8, V-C9, V-O7: the check that each word fails. -/
theorem test_decode_rejects :
    decode 0x00000000#32 = .error .reservedOpcode ∧ decode 0x00000008#32 = .error .reservedOpcode ∧
    decode 0xFFFFFFFF#32 = .error .reservedOpcode ∧ decode 0x00001102#32 = .error .argNotZero ∧
    decode 0x00000211#32 = .error .reservedField ∧ decode 0x00010201#32 = .error .dataNotZero ∧
    decode 0x00000103#32 = .error .argNotZero ∧ decode 0x00010003#32 = .error .dataNotZero := by decide

theorem test_table_word : decodeTableWord 32 0x00410002 = some (.push 0x41#16) ∧ decodeTableWord 32 0 = none := by decide

/-- Lines of 30_encoding.md R69. -/
theorem test_assemble_lines :
    assembleLine .w8 "P: PUSH 0x41" = some (.producer, 0x00410002#32) ∧
    assembleLine .w8 "H: config 16" = some (.host, 0x00001001#32) ∧
    assembleLine .w8 "P: PUSH 256" = none ∧ assembleLine .w16 "P: PUSH 256" = some (.producer, 0x01000002#32) ∧
    assembleLine .w8 "H: CONFIG 256" = none ∧ assembleLine .w8 "C:POP" = some (.consumer, 0x3#32) := by decide

/-! ### One command each (95_test_vectors.md section 2) -/

/-- V-C10. -/
theorem test_config_sets_exp_and_empties :
    summary (issue .host 0x00000301#32 (block .w8 2#5 5#32 9#32 [])) =
      some (3#5, 0#32, 0#32, some (.host, ⟨.ok, false, 0#32⟩)) := by decide

/-- V-C11. -/
theorem test_config_seventeen_keeps_state :
    summary (issue .host 0x00001101#32 (block .w8 2#5 5#32 9#32 [])) =
      some (2#5, 5#32, 9#32, some (.host, ⟨.invalidCapacity, false, 0#32⟩)) := by decide

/-- V-P3. -/
theorem test_push_evicts_when_full :
    (stateOf (issue .producer 0x00040002#32 (block .w8 2#5 0#32 4#32 [(0, 0), (1, 1), (2, 2), (3, 3)]))).map
      (fun t => (t.rd, t.wr, t.store)) = some (1#32, 5#32, [(0, 4), (1, 1), (2, 2), (3, 3)]) := by decide

/-- V-P4: across the counter wrap, no eviction. -/
theorem test_push_across_wrap :
    (stateOf (issue .producer 0x00090002#32 (block .w8 2#5 0xFFFFFFFD#32 0xFFFFFFFF#32 [(1, 7), (2, 8)]))).map
      (fun t => (t.rd, t.wr, t.store)) = some (0xFFFFFFFD#32, 0#32, [(1, 7), (2, 8), (3, 9)]) := by decide

/-- V-O4, its first POP. -/
theorem test_pop_returns_oldest :
    summary (issue .consumer 0x3#32 (block .w8 2#5 0xFFFFFFFF#32 1#32 [(0, 0x22), (3, 0x11)])) =
      some (2#5, 0#32, 1#32, some (.consumer, ⟨.ok, true, 0x11#32⟩)) := by decide

/-- V-O8. -/
theorem test_pop_sixteen_bit_item :
    summary (issue .consumer 0x3#32 (block .w16 16#5 0#32 1#32 [(0, 0xBEEF)])) =
      some (16#5, 1#32, 1#32, some (.consumer, ⟨.ok, true, 0xBEEF#32⟩)) := by decide

/-- V-S2 across the counter wrap, and V-S4. -/
theorem test_len_across_wrap :
    summary (issue .host 0x4#32 (block .w8 2#5 0xFFFFFFFE#32 2#32 [])) =
      some (2#5, 0xFFFFFFFE#32, 2#32, some (.host, ⟨.ok, true, 4#32⟩)) := by decide
theorem test_len_full_largest :
    (stateOf (issue .consumer 0x4#32 full16)).map (fun t => t.resp) = some (some (.consumer, ⟨.ok, true, 0x10000#32⟩)) := by
  decide

/-- V-S5, its ends. -/
theorem test_cap_ends :
    (stateOf (issue .producer 0x5#32 full16)).map (fun t => t.resp) = some (some (.producer, ⟨.ok, true, 65536#32⟩)) ∧
    (stateOf (issue .host 0x5#32 three)).map (fun t => t.resp) = some (some (.host, ⟨.ok, true, 4#32⟩)) := by decide

/-- V-S2 and V-S3. -/
theorem test_full_boundary :
    (stateOf (issue .host 0x6#32 (block .w8 2#5 0xFFFFFFFE#32 2#32 []))).map (fun t => t.resp) =
      some (some (.host, ⟨.ok, true, 1#32⟩)) ∧
    (stateOf (issue .host 0x6#32 (block .w8 2#5 7#32 10#32 []))).map (fun t => t.resp) =
      some (some (.host, ⟨.ok, true, 0#32⟩)) := by decide
theorem test_free_boundary :
    (stateOf (issue .host 0x7#32 (block .w8 2#5 0xFFFFFFFE#32 2#32 []))).map (fun t => t.resp) =
      some (some (.host, ⟨.ok, true, 0#32⟩)) ∧
    (stateOf (issue .host 0x7#32 (block .w8 2#5 7#32 10#32 []))).map (fun t => t.resp) =
      some (some (.host, ⟨.ok, true, 1#32⟩)) := by decide

/-- V-C13: the port check comes before CONFIG's exponent check. -/
theorem test_wrong_port_before_bad_exponent :
    summary (issue .producer 0x00001101#32 three) =
      some (2#5, 0#32, 3#32, some (.producer, ⟨.illegalCommand, false, 0#32⟩)) := by decide

/-- V-B3, its LEN: the burst goes on with the count 3. -/
theorem test_fetchL_fixes_count :
    (stateOf (step { three with consumer := ⟨[.fetchL 10#32], []⟩, turns := [.port .consumer] })).map
      (fun t => t.consumer.todo) = some [.fetch 3#32 []] := by decide

/-- V-B2, its last POP: "no item" ends the burst with what it got. -/
theorem test_fetch_stops_on_no_item :
    (stateOf (step { none4 with consumer := ⟨[.fetch 10#32 [1, 2, 3]], []⟩, turns := [.port .consumer] })).map
      (fun t => t.consumer) = some ⟨[], [.fetched 3 [1, 2, 3]]⟩ := by decide

/-! ### Witnesses: states and operands that meet a statement's hypotheses, clause by clause -/

theorem witness_ConfigCommandRule :
    (withPort .host three).port = .host ∧ (2 ≤ (2#8).toNat ∧ (2#8).toNat ≤ 16) ∧ (2 ≤ (16#8).toNat ∧ (16#8).toNat ≤ 16) ∧
    ((1#8).toNat < 2 ∨ 16 < (1#8).toNat) ∧ ((17#8).toNat < 2 ∨ 16 < (17#8).toNat) ∧ (withPort .producer three).port ≠ .host ∧
    ((0x00000211#32).extractLsb' 0 4 = 0x1#4 ∧ (0x00000211#32).extractLsb' 4 4 ≠ 0x0#4) ∧
    ((0x00010201#32).extractLsb' 0 4 = 0x1#4 ∧ (0x00010201#32).extractLsb' 16 16 ≠ 0x0#16) ∧
    ((0x00000201#32).extractLsb' 0 4 = 0x1#4 ∧ Port.consumer ≠ .host) := by decide

theorem witness_PushCommandRule :
    ((withPort .producer three).port = .producer ∧ (0xFF#16).toNat < 2 ^ three.itemBits.bits ∧
      (three.wr - three.rd).toNat ≠ 2 ^ three.exp.toNat) ∧
    ((withPort .producer oneWide).port = .producer ∧ (0xFFFF#16).toNat < 2 ^ oneWide.itemBits.bits ∧
      (oneWide.wr - oneWide.rd).toNat ≠ 2 ^ oneWide.exp.toNat) ∧
    ((withPort .producer full4).port = .producer ∧ (0xFF#16).toNat < 2 ^ full4.itemBits.bits ∧
      (full4.wr - full4.rd).toNat = 2 ^ full4.exp.toNat) ∧
    ((withPort .host three).port ≠ .producer) ∧ (2 ^ three.itemBits.bits ≤ (0x100#16).toNat) ∧
    ((0x00410012#32).extractLsb' 0 4 = 0x2#4 ∧ (0x00410012#32).extractLsb' 4 4 ≠ 0x0#4) ∧
    ((0x00410102#32).extractLsb' 0 4 = 0x2#4 ∧ (0x00410102#32).extractLsb' 8 8 ≠ 0x0#8) ∧
    ((0x00410002#32).extractLsb' 0 4 = 0x2#4 ∧ Port.consumer ≠ .producer) ∧
    ((0x01000002#32).extractLsb' 0 4 = 0x2#4 ∧ three.itemBits = .w8 ∧ (0x01000002#32).extractLsb' 24 8 ≠ 0x0#8) ∧
    (one.exp.toNat ≤ 16 ∧ one.wr = 0xFFFFFFFF#32) ∧
    ((full16.wr - full16.rd).toNat = 2 ^ full16.exp.toNat) := by decide

/-- The clauses of PUSH and POP that ask for the invariant, at CAP − 1, at CAP and at one item. -/
theorem witness_invariant_clauses :
    (BlockInv (withPort .producer three) ∧ (withPort .producer three).port = .producer ∧
      (three.wr - three.rd).toNat = 2 ^ three.exp.toNat - 1) ∧
    (BlockInv (withPort .producer full4) ∧ isFull (withPort .producer full4) = true) ∧
    (BlockInv (withPort .consumer one) ∧ (withPort .consumer one).port = .consumer ∧ 1 ≤ (one.wr - one.rd).toNat) ∧
    (BlockInv none4 ∧ none4.wr - none4.rd = 0#32) ∧ BlockInv oneWide :=
  ⟨⟨withPort_inv _ three_inv, rfl, by decide⟩, ⟨withPort_full4_inv _, by decide⟩, ⟨withPort_inv _ one_inv, rfl, by decide⟩,
    ⟨none4_inv, by decide⟩, oneWide_inv⟩

theorem witness_PopCommandRule :
    ((withPort .consumer none4).port = .consumer ∧ none4.wr - none4.rd = 0#32) ∧
    ((withPort .consumer one).port = .consumer ∧ one.wr - one.rd ≠ 0#32) ∧ (withPort .host one).port ≠ .consumer ∧
    ((0x00000013#32).extractLsb' 0 4 = 0x3#4 ∧ 0x00000013#32 ≠ 0x00000003#32) ∧
    ((0x00000003#32).extractLsb' 0 4 = 0x3#4 ∧ Port.producer ≠ .consumer) ∧
    (oneWide.exp.toNat ≤ 16 ∧ oneWide.rd = 0xFFFFFFFF#32) := by decide

theorem witness_LenCommandRule :
    ((0x00000014#32).extractLsb' 0 4 = 0x4#4 ∧ 0x00000014#32 ≠ 0x00000004#32) ∧
    ((withPort .producer full4).port = .producer ∧ (0xFF#16).toNat < 2 ^ full4.itemBits.bits ∧
      (full4.wr - full4.rd).toNat = 2 ^ full4.exp.toNat) := by decide

theorem witness_CapCommandRule :
    ((0x00000105#32).extractLsb' 0 4 = 0x5#4 ∧ 0x00000105#32 ≠ 0x00000005#32) ∧
    ((withPort .host three).port = .host ∧ ((1#8).toNat < 2 ∨ 16 < (1#8).toNat) ∧ ((17#8).toNat < 2 ∨ 16 < (17#8).toNat)) := by
  decide

theorem witness_FullCommandRule :
    ((0x00010006#32).extractLsb' 0 4 = 0x6#4 ∧ 0x00010006#32 ≠ 0x00000006#32) ∧ none4.wr - none4.rd = 0#32 ∧
    (three.wr - three.rd).toNat = 2 ^ three.exp.toNat - 1 ∧
    ((withPort .producer full4).port = .producer ∧ (0xFF#16).toNat < 2 ^ full4.itemBits.bits ∧
      isFull (withPort .producer full4) = true) := by decide

theorem witness_FreeCommandRule :
    ((0x00000017#32).extractLsb' 0 4 = 0x7#4 ∧ 0x00000017#32 ≠ 0x00000007#32) ∧ none4.wr - none4.rd = 0#32 ∧
    (three.wr - three.rd).toNat = 2 ^ three.exp.toNat - 1 ∧ (full4.wr - full4.rd).toNat = 2 ^ full4.exp.toNat := by decide

theorem witness_MatchMaskTableSelectsCommand :
    (∃ r ∈ opcodeRows, 0x00000201#32 &&& r.mask = r.matchBits) ∧ decode 0x00000201#32 = .ok (.config 2#8) ∧
    (0x01000002#32 &&& 0x0000FFFF#32 = 0x00000002#32 ∧ three.itemBits = .w8 ∧ (0x01000002#32).extractLsb' 24 8 ≠ 0x0#8) := by
  decide

theorem witness_ReservedEncodingsAnswerIllegal :
    (¬ ∃ i, decode 0x00000008#32 = .ok i) ∧ (¬ ∃ i, decode 0x00000011#32 = .ok i) := by
  have h1 : decode 0x00000008#32 = .error .reservedOpcode := by decide
  have h2 : decode 0x00000011#32 = .error .reservedField := by decide
  constructor <;> rintro ⟨i, h⟩ <;> simp_all

theorem witness_PortTableEnforced :
    ((withPort .consumer three).port ≠ .host ∧ ∃ e, Instr.config 2#8 = .config e) ∧
    ((withPort .host three).port ≠ .producer ∧ ∃ d, Instr.push 1#16 = .push d) ∧ (withPort .producer three).port ≠ .consumer ∧
    ((Instr.config 255#8).wellFormed three.itemBits = true ∧ (withPort .host three).port = .host) ∧
    ((Instr.push 0xFF#16).wellFormed three.itemBits = true ∧ (withPort .producer three).port = .producer) ∧
    (Instr.pop.wellFormed three.itemBits = true ∧ (withPort .consumer three).port = .consumer) ∧
    (Instr.free.wellFormed three.itemBits = true) :=
  ⟨⟨by decide, _, rfl⟩, ⟨by decide, _, rfl⟩, by decide, by decide, by decide, by decide, by decide⟩

/-- For EveryWordIsAnswered, ErrorCodesAndCauses and ErrorWritesNoState: a command answered with an error, one without a value, one
with a value. -/
theorem witness_answers :
    summary (issue .host 0x00000008#32 three) =
      some (2#5, 0#32, 3#32, some (.host, ⟨.illegalCommand, false, 0#32⟩)) ∧
    summary (issue .producer 0x00070002#32 three) = some (2#5, 0#32, 4#32, some (.producer, ⟨.ok, false, 0#32⟩)) ∧
    summary (issue .consumer 0x00000003#32 three) = some (2#5, 1#32, 3#32, some (.consumer, ⟨.ok, true, 1#32⟩)) ∧
    decode 0x00000004#32 = .ok .len := ⟨by decide, by decide, by decide, by decide⟩

theorem witness_OverrunAndUnderrunSucceed :
    ((withPort .producer full4).port = .producer ∧ (0xFF#16).toNat < 2 ^ full4.itemBits.bits ∧
      isFull (withPort .producer full4) = true) ∧
    ((withPort .consumer none4).port = .consumer ∧ isEmpty (withPort .consumer none4) = true) := by decide

theorem witness_RejectedConfigKeepsItems :
    three.port = .host ∧ ((0#8).toNat < 2 ∨ 16 < (0#8).toNat) ∧ ((1#8).toNat < 2 ∨ 16 < (1#8).toNat) ∧
    ((17#8).toNat < 2 ∨ 16 < (17#8).toNat) ∧ ((255#8).toNat < 2 ∨ 16 < (255#8).toNat) := by decide

theorem witness_EvictionIsSilent :
    (withPort .producer full4).port = .producer ∧ (withPort .producer three).port = .producer ∧
    full4.itemBits = three.itemBits ∧ isFull (withPort .producer full4) = true ∧ isFull (withPort .producer three) = false := by
  decide

theorem witness_EncodeDecodeRoundTrip :
    decode 0x0000FF01#32 = .ok (.config 0xFF#8) ∧ decode 0xFFFF0002#32 = .ok (.push 0xFFFF#16) := by decide

theorem witness_AssembledWordIsLegal :
    assemble .w8 (.config 255) = some 0x0000FF01#32 ∧ assemble .w8 (.push 255) = some 0x00FF0002#32 ∧
    assemble .w16 (.push 65535) = some 0xFFFF0002#32 ∧ three.itemBits = .w8 ∧ mayIssue (.config 255#8) .host = true ∧
    255 < 256 ∧ 2 ^ ItemWidth.w8.bits ≤ 256 ∧ 2 ^ ItemWidth.w16.bits ≤ 65536 := by decide

theorem witness_ResetEventResetsTheBlock : (withTurns [.reset, .port .consumer] three).turns = .reset :: [.port .consumer] := rfl

/-- A state that meets the invariant and that the step moves: its producer's PUSH evicts. -/
def pushing : State :=
  { full4 with producer := ⟨[.pushN [0xFF#16, 7#16] 0], []⟩, turns := [.port .producer, .port .producer] }

theorem pushing_inv : BlockInv pushing := inv_congr (s := full4) rfl rfl rfl rfl rfl full4_inv

theorem witness_StepKeepsInvariant : BlockInv pushing ∧ ∃ t, step pushing = .next t :=
  ⟨pushing_inv, next_of_isSome (by decide)⟩

theorem witness_StepRunsDecodedCommand :
    (pushing.turns = .port .producer :: [.port .producer] ∧
      presented .producer (settle .producer { pushing with turns := [.port .producer] }) = some 0x00FF0002#32 ∧
      decode 0x00FF0002#32 = .ok (.push 0xFF#16)) ∧
    (presented .host (settle .host { three with host := ⟨[0x8#32], []⟩ }) = some 0x8#32 ∧
      decode 0x8#32 = .error .reservedOpcode) ∧
    presented .consumer (settle .consumer { three with consumer := ⟨[.fetch 0#32 []], []⟩ }) = none ∧ three.turns = [] := by
  decide

theorem witness_PlacedWordRunsNext : decode 0x3#32 = .ok .pop := by decide

/-- One state for each kind of turn. -/
theorem witness_OnlyTheOwnersWrite :
    (pushing.turns = .port .producer :: [.port .producer] ∧ ∃ t, step pushing = .next t) ∧
    (∃ t, step (State.withFetchWord full4 32 0x3) = .next t ∧ t.rd = full4.rd + 1#32) ∧
    (∃ t, step (State.withFetchWord full4 32 0x1001) = .next t ∧ t.rd = 0#32) ∧
    ((State.withFetchWord full4 32 0x3).turns = [.port .consumer] ∧ (State.withFetchWord full4 32 0x1001).turns = [.port .host]) ∧
    (∃ t, step (withTurns [.reset] full4) = .next t ∧ t.exp = 16#5) :=
  ⟨⟨rfl, next_of_isSome (by decide)⟩, ⟨_, rfl, by decide⟩, ⟨_, rfl, by decide⟩, by decide, ⟨_, rfl, rfl⟩⟩

/-- For CountersMoveOnlyByOneOrToZero and ExponentWrittenOnlyByConfig: an accepted CONFIG and other commands. -/
theorem witness_counters :
    configures .host 0x1001#32 = true ∧ configures .host 0x1101#32 = false ∧ configures .consumer 0x3#32 = false ∧
    (stateOf (issue .host 0x1001#32 full4)).isSome = true ∧ (stateOf (issue .consumer 0x3#32 full4)).isSome = true ∧
    (stateOf (issue .producer 0x00FF0002#32 full4)).isSome = true := by decide

/-- For PushFrame, PopFrame and ConfigFrame, clause by clause. -/
theorem witness_frames :
    (∃ t, exec (.push 0xFF#16) (withPort .producer full4) = .next t) ∧
    (isFull (withPort .producer three) = false ∧ ∃ t, exec (.push 0xFF#16) (withPort .producer three) = .next t) ∧
    ((withPort .host three).port ≠ .producer ∧ ∃ t, exec (.push 0xFF#16) (withPort .host three) = .next t) ∧
    (2 ^ three.itemBits.bits ≤ (0x100#16).toNat ∧ (2#16 ≠ slotOf full4.exp full4.wr)) ∧
    (∃ t, exec .pop (withPort .consumer full4) = .next t) ∧
    (isEmpty (withPort .consumer none4) = true ∧ ∃ t, exec .pop (withPort .consumer none4) = .next t) ∧
    (∃ t, exec (.config 16#8) (withPort .host full4) = .next t) :=
  ⟨next_of_isSome (by decide), ⟨by decide, next_of_isSome (by decide)⟩, ⟨by decide, next_of_isSome (by decide)⟩, by decide,
    next_of_isSome (by decide), ⟨by decide, next_of_isSome (by decide)⟩, next_of_isSome (by decide)⟩

theorem witness_StatusQueriesFrame : ∀ i ∈ [Instr.len, .cap, .full, .free], i = .len ∨ i = .cap ∨ i = .full ∨ i = .free := by
  decide

theorem witness_CommandRefinesQueue : BlockInv full4 ∧ contents full4 = [0x41#16, 0x42#16, 0x43#16, 0x44#16] :=
  ⟨full4_inv, by decide⟩

/-- A schedule with an eviction, a POP and a refused word, none of them a CONFIG that is accepted. -/
def schedule : List (Port × Word) :=
  [(.producer, 0x00450002#32), (.consumer, 0x3#32), (.host, 0x8#32), (.host, 0x1101#32), (.producer, 0x00460002#32)]

theorem witness_EveryScheduleRefinesQueue : BlockInv full4 ∧ schedule.length = 5 := ⟨full4_inv, rfl⟩

theorem witness_FifoOrderWithEvictions :
    BlockInv full4 ∧ (∀ c ∈ schedule, configures c.1 c.2 = false) ∧
    departures schedule full4 = [(0x41#16, .evicted), (0x42#16, .popped)] := ⟨full4_inv, by decide, by decide⟩

theorem witness_PopReadsAWrittenSlot :
    BlockInv (withPort .consumer one) ∧ (withPort .consumer one).port = .consumer ∧ isEmpty (withPort .consumer one) = false :=
  ⟨withPort_inv _ one_inv, rfl, by decide⟩

/-- `three` with its dead slot written and another era. -/
def threeDead : State := { three with store := [(0, 1#16), (1, 2#16), (2, 3#16), (3, 0x99#16)], era := 7 }

theorem witness_DeadSlotsUnobservable : SameView three threeDead ∧ three ≠ threeDead :=
  ⟨⟨by decide, by decide⟩, by decide⟩

theorem witness_CounterShiftUnobservable :
    (4#32).toNat % 2 ^ three.exp.toNat = 0 ∧ (0xFFFFFFFC#32).toNat % 2 ^ three.exp.toNat = 0 := by decide

theorem witness_PushPopRaceOutcomes :
    BlockInv full4 ∧ isFull full4 = true ∧ contents full4 = 0x41#16 :: 0x42#16 :: [0x43#16, 0x44#16] ∧
    (0xFF#16).toNat < 2 ^ full4.itemBits.bits := ⟨full4_inv, by decide, by decide, by decide⟩

/-- Schedules of the other agents: without commands of C, without commands of P, with no push after a CONFIG. -/
theorem witness_ConsumerSeesOccupancyGrow :
    BlockInv three ∧ ∀ c ∈ [(Port.producer, 0x00450002#32), (Port.host, 0x1101#32)], c.1 ≠ .consumer ∧ configures c.1 c.2 = false :=
  ⟨three_inv, by decide⟩

theorem witness_ProducerSeesOccupancyShrink :
    BlockInv three ∧ hasFree three = true ∧ ∀ c ∈ [(Port.consumer, 0x3#32), (Port.host, 0x1001#32)], c.1 ≠ .producer :=
  ⟨three_inv, by decide, by decide⟩

theorem witness_ConfigDiscardsItems :
    BlockInv full4 ∧ configures .host 0x201#32 = true ∧
    ∀ c ∈ [(Port.consumer, 0x3#32), (Port.host, 0x4#32)], arrival full4.itemBits c.1 c.2 = [] :=
  ⟨full4_inv, by decide, by decide⟩

theorem witness_PushBurstKeepsNewest :
    BlockInv pushing ∧ pushing.producer = ⟨[.pushN [0xFF#16, 7#16] 0], []⟩ ∧
    (∀ b ∈ [0xFF#16, 7#16], b.toNat < 2 ^ pushing.itemBits.bits) ∧
    pushing.turns = List.replicate (max 1 [0xFF#16, 7#16].length) (.port .producer) ++ [] :=
  ⟨pushing_inv, rfl, items_fit (by decide), rfl⟩

/-- An empty PUSHN, at the boundary of the same statement. -/
theorem witness_empty_push_burst :
    ({ full4 with producer := ⟨[.pushN [] 0], []⟩, turns := [.port .producer] } : State).turns =
      List.replicate (max 1 ([] : List Item).length) (.port .producer) ++ [] := rfl

/-- A FETCH that asks for more than is held (V-B2), one that asks for less, and one of none. -/
def fetching (m : Word) (n : Nat) : State :=
  { three with consumer := ⟨[.fetch m []], []⟩, turns := List.replicate n (.port .consumer) }

theorem fetching_inv (m : Word) (n : Nat) : BlockInv (fetching m n) := inv_congr (s := three) rfl rfl rfl rfl rfl three_inv

theorem witness_FetchBurstReturnsOldest :
    BlockInv (fetching 10#32 4) ∧ (fetching 10#32 4).consumer = ⟨[.fetch 10#32 []], []⟩ ∧
    (fetching 10#32 4).turns =
      List.replicate (fetchTurns (10#32).toNat (contents (fetching 10#32 4)).length) (.port .consumer) ++ [] ∧
    fetchTurns (3#32).toNat (contents (fetching 3#32 3)).length = 3 ∧
    fetchTurns (0#32).toNat (contents (fetching 0#32 1)).length = 1 :=
  ⟨fetching_inv _ _, rfl, by decide, by decide, by decide⟩

/-- A FETCHL that asks for more than is held (V-B3). -/
def snapshot : State := { three with consumer := ⟨[.fetchL 10#32], []⟩, turns := List.replicate 4 (.port .consumer) }

theorem witness_SnapshotFetchReturnsOldest :
    BlockInv snapshot ∧ snapshot.consumer = ⟨[.fetchL 10#32], []⟩ ∧
    snapshot.turns = List.replicate (1 + min (10#32).toNat (contents snapshot).length) (.port .consumer) ++ [] :=
  ⟨inv_congr (s := three) rfl rfl rfl rfl rfl three_inv, rfl, by decide⟩

/-- Its first clause by `snapshot`; its second at the last item, served to C, to P and to H. -/
theorem witness_SnapshotFetchNeverRunsShort :
    (snapshot.consumer.todo = .fetchL 10#32 :: [] ∧ snapshot.turns = .port .consumer :: List.replicate 3 (.port .consumer)) ∧
    BlockInv (fetching 3#32 3) ∧
    ((fetching 3#32 3).consumer.todo = .fetch 3#32 [] :: [] ∧ ([] : List Item).length < (3#32).toNat ∧
      (3#32).toNat - ([] : List Item).length ≤ ((fetching 3#32 3).wr - (fetching 3#32 3).rd).toNat ∧
      (fetching 3#32 3).turns = .port .consumer :: List.replicate 2 (.port .consumer)) ∧
    (({ fetching 3#32 3 with turns := [.port .producer] } : State).turns = .port .producer :: []) ∧
    (({ fetching 3#32 3 with turns := [.port .host], host := ⟨[0x1101#32], []⟩ } : State).host.todo.head? = some 0x1101#32 ∧
      configures .host 0x1101#32 = false) :=
  ⟨⟨rfl, rfl⟩, fetching_inv _ _, by decide, rfl, by decide⟩

/-- Five items pushed into a buffer of four, then five asked for: the counts of turns at the boundary. -/
def pushThenFetch : State :=
  { none4 with
    producer := ⟨[.pushN [1#16, 2#16, 3#16, 4#16, 5#16] 0], []⟩, consumer := ⟨[.fetch 5#32 []], []⟩,
    turns := List.replicate 5 (.port .producer) ++ List.replicate 5 (.port .consumer) }

theorem witness_PushBurstThenFetchBurst :
    BlockInv pushThenFetch ∧ isEmpty pushThenFetch = true ∧
    (∀ b ∈ [1#16, 2#16, 3#16, 4#16, 5#16], b.toNat < 2 ^ pushThenFetch.itemBits.bits) ∧
    pushThenFetch.turns = List.replicate (max 1 [1#16, 2#16, 3#16, 4#16, 5#16].length) (.port .producer) ++
      (List.replicate (fetchTurns (5#32).toNat (min (2 ^ pushThenFetch.exp.toNat) [1#16, 2#16, 3#16, 4#16, 5#16].length))
        (.port .consumer) ++ []) :=
  ⟨inv_congr (s := none4) rfl rfl rfl rfl rfl none4_inv, by decide, items_fit (by decide), by decide⟩

end Sys2Proof.Machine.Tests
end

section
/-! The equations of one command: what each command answers on a port that may issue it and on one that may not, and what
`configures` means (30_encoding.md R62, R65; 40_config.md R81, 41_push.md R90, 42_fetch.md R100). -/

namespace Sys2Proof.Machine

/-- A command from a port that may not issue it is ILLEGAL_COMMAND (30_encoding.md R65). -/
theorem exec_refused {i : Instr} {s : State} (h : mayIssue i s.port = false) :
    exec i s = .next (respond .illegalCommand false 0#32 s) := by
  cases i <;> exact onAllowedPort_refused h _

theorem exec_config_accepted {e : BitVec 8} {s : State} (hp : s.port = .host) (he : exponentOk e = true) :
    exec (.config e) s = .next (respond .ok false 0#32 (configure e s)) :=
  (onAllowedPort_allowed (mayIssue_config.2 hp) _).trans (if_pos he)

theorem exec_config_rejected {e : BitVec 8} {s : State} (hp : s.port = .host) (he : exponentOk e = false) :
    exec (.config e) s = .next (respond .invalidCapacity false 0#32 s) :=
  (onAllowedPort_allowed (mayIssue_config.2 hp) _).trans (if_neg (by simp [he]))

theorem exec_push_fits {d : BitVec 16} {s : State} (hp : s.port = .producer) (hd : itemTooWide s.itemBits d = false) :
    exec (.push d) s = .next (respond .ok false 0#32 (appendItem d s)) :=
  (onAllowedPort_allowed (mayIssue_push.2 hp) _).trans (if_neg (by simp [hd]))

theorem exec_push_tooWide {d : BitVec 16} {s : State} (hp : s.port = .producer) (hd : itemTooWide s.itemBits d = true) :
    exec (.push d) s = .next (respond .illegalCommand false 0#32 s) :=
  (onAllowedPort_allowed (mayIssue_push.2 hp) _).trans (if_pos hd)

theorem exec_pop_empty {s : State} (hp : s.port = .consumer) (he : isEmpty s = true) :
    exec .pop s = .next (respond .ok false 0#32 s) :=
  (onAllowedPort_allowed (mayIssue_pop.2 hp) _).trans (if_pos he)

theorem exec_pop_item {s : State} (hp : s.port = .consumer) (he : isEmpty s = false) :
    exec .pop s = .next (respond .ok true (itemValue (oldestItem s)) (advanceRd s)) :=
  (onAllowedPort_allowed (mayIssue_pop.2 hp) _).trans (if_neg (by simp [he]))

/-- The four status commands answer OK with a value on every port and write nothing else (43_status.md). -/
theorem exec_status {i : Instr} (hi : i = .len ∨ i = .cap ∨ i = .full ∨ i = .free) (s : State) :
    ∃ v, exec i s = .next (respond .ok true v s) := by
  rcases hi with rfl | rfl | rfl | rfl <;> exact ⟨_, rfl⟩

/-- An accepted CONFIG is a CONFIG on port H with an exponent in range (40_config.md R81). -/
theorem configures_iff (p : Port) (w : Word) :
    configures p w = true ↔ ∃ e, decode w = .ok (.config e) ∧ p = .host ∧ exponentOk e = true := by
  cases hd : decode w with
  | error r => simp [configures, hd]
  | ok i => cases i <;> simp [configures, hd]

end Sys2Proof.Machine
end

section
/-! The responses of commands have the shape of 30_encoding.md R64. -/

namespace Sys2Proof.Machine

/-- A command's response either carries no value, or is OK with the value of a POP or of a status command. -/
theorem issue_resp_shape {p : Port} {w : Word} {s t : State} (h : issue p w s = .next t) :
    (∃ st, t.resp = some (p, ⟨st, false, 0#32⟩)) ∨
    (∃ v i, t.resp = some (p, ⟨.ok, true, v⟩) ∧ decode w = .ok i ∧
      (i = .pop ∨ i = .len ∨ i = .cap ∨ i = .full ∨ i = .free)) := by
  obtain ⟨t', h', hc⟩ := issue_cases p w s
  rw [h] at h'
  cases h'
  rcases hc with ⟨st, -, rfl, -⟩ | ⟨e, -, -, -, rfl, -⟩ | ⟨d, -, -, -, rfl, -⟩ | ⟨-, -, -, rfl, -⟩ |
    ⟨hw, -, -, rfl, -⟩ | ⟨v, rfl, -, -, -, hw⟩
  · exact .inl ⟨st, rfl⟩
  · exact .inl ⟨.ok, rfl⟩
  · exact .inl ⟨.ok, by rw [respond_resp, appendItem_port, withPort_port]⟩
  · exact .inl ⟨.ok, rfl⟩
  · exact .inr ⟨_, _, rfl, hw, .inl rfl⟩
  · rcases hw with ⟨hw, -⟩ | ⟨hw, -⟩ | ⟨hw, -⟩ | ⟨hw, -⟩ <;> exact .inr ⟨v, _, rfl, hw, by simp⟩

/-- A status command is answered OK with a value, whatever the port and the state. -/
theorem issue_status_resp {p : Port} {w : Word} {s t : State} {i : Instr} (h : issue p w s = .next t)
    (hd : decode w = .ok i) (hi : i = .len ∨ i = .cap ∨ i = .full ∨ i = .free) :
    ∃ v, t.resp = some (p, okValue v) := by
  obtain ⟨v, hv⟩ := exec_status hi (withPort p s)
  rw [issue_ok hd, hv] at h
  cases h
  exact ⟨v, rfl⟩

theorem statusCode_ne_three (st : Status) : statusCode st ≠ 3#2 := by
  cases st <;> decide

/-- Settles O12, from the two lemmas on a response's shape and the frame of a command. -/
theorem everyWordIsAnswered : Obligations.EveryWordIsAnswered := by
  intro p w s
  obtain ⟨t, ht, -⟩ := issue_cases p w s
  obtain ⟨-, -, -, -, -, -, hport⟩ := issue_frame ht
  rcases issue_resp_shape ht with ⟨st, hr⟩ | ⟨v, i, hr, hd, hi⟩
  · refine ⟨t, _, ht, hr, hport, fun _ => rfl, fun _ => rfl, statusCode_ne_three st, nofun, fun i hd hi => ?_⟩
    obtain ⟨v, hv⟩ := issue_status_resp ht hd hi
    cases hr.symm.trans hv
  · exact ⟨t, _, ht, hr, hport, nofun, fun h => absurd rfl h, statusCode_ne_three .ok, fun _ => ⟨i, hd, hi⟩,
      fun _ _ _ => ⟨rfl, rfl⟩⟩

end Sys2Proof.Machine
end

section
/-! One command refines the bounded queue (10_state.md R25, R26, 41_push.md R93). -/

namespace Sys2Proof.Machine

/-- An answer to port `p` refines the queue's answer `a`: the next state meets the invariant, leaves the queue's response for `p`
and stands for the queue after it. -/
def Refines (p : Port) (b : Answer) (a : Response × Queue) : Prop :=
  ∃ t, b = .next t ∧ BlockInv t ∧ t.resp = some (p, a.1) ∧ queueOf t = a.2

theorem queueOf_withPort (p : Port) (s : State) : queueOf (withPort p s) = queueOf s := by
  rw [queueOf, withPort_contents, withPort_exp, queueOf]

theorem queueOf_respond (st : Status) (vld : Bool) (val : Word) (s : State) :
    queueOf (respond st vld val s) = queueOf s := by
  rw [queueOf, respond_contents, respond_exp, queueOf]

/-- A response given in a state that meets the invariant: what is left is that state's queue. -/
theorem refines_respond (st : Status) (vld : Bool) (val : Word) {s : State} (h : BlockInv s) :
    Refines s.port (.next (respond st vld val s)) (⟨st, vld, val⟩, queueOf s) :=
  ⟨_, rfl, respond_inv st vld val h, rfl, queueOf_respond st vld val s⟩

theorem appendItem_exp (d : BitVec 16) (s : State) : (appendItem d s).exp = s.exp := by
  simp only [appendItem, evictIfFull]
  split <;> rfl

theorem queueOf_configure (e : BitVec 8) (s : State) : queueOf (configure e s) = ⟨e.setWidth 5, []⟩ := by
  rw [queueOf, contents_configure, configure_exp]

/-- An append is the queue's: the item at the end, the newest CAP kept. -/
theorem queueOf_appendItem {s : State} (h : BlockInv s) {d : BitVec 16} (hd : itemTooWide s.itemBits d = false) :
    queueOf (appendItem d s) = ⟨s.exp, keepNewest (2 ^ s.exp.toNat) (contents s ++ [d])⟩ := by
  rw [queueOf, contents_appendItem h, itemOf_of_fits hd, appendItem_exp]

theorem contents_of_isEmpty {s : State} (h : isEmpty s = true) : contents s = [] := by
  rw [← List.length_eq_zero_iff, contents_length, (isEmpty_iff_occupancy s).1 h]

theorem occupancy_ne_zero_of_not_isEmpty {s : State} (h : isEmpty s = false) : (occupancy s).toNat ≠ 0 := by
  rw [Ne, ← isEmpty_iff_occupancy, h]
  decide

/-! ### Each command on a port that may issue it -/

theorem exec_config_refines {s : State} (h : BlockInv s) (e : BitVec 8) (hp : s.port = .host) :
    Refines s.port (exec (.config e) s) (queueCommand s.itemBits (.config e) (queueOf s)) := by
  cases he : exponentOk e with
  | true =>
    rw [exec_config_accepted hp he, queueCommand, if_pos ((exponentOk_iff e).1 he), ← queueOf_configure e s]
    exact refines_respond _ _ _ (configure_inv h he)
  | false =>
    rw [exec_config_rejected hp he, queueCommand, if_neg (by simp [← exponentOk_iff, he])]
    exact refines_respond _ _ _ h

theorem exec_push_refines {s : State} (h : BlockInv s) (d : BitVec 16) (hp : s.port = .producer) :
    Refines s.port (exec (.push d) s) (queueCommand s.itemBits (.push d) (queueOf s)) := by
  cases hd : itemTooWide s.itemBits d with
  | true =>
    have hwide : 2 ^ s.itemBits.bits ≤ d.toNat := by simpa [itemTooWide_eq] using hd
    rw [exec_push_tooWide hp hd, queueCommand, if_pos hwide]
    exact refines_respond _ _ _ h
  | false =>
    have hfits : ¬ 2 ^ s.itemBits.bits ≤ d.toNat := by simpa [itemTooWide_eq] using hd
    have happend : queueOf (appendItem d s) =
        ⟨(queueOf s).exp, keepNewest (2 ^ (queueOf s).exp.toNat) ((queueOf s).items ++ [d])⟩ := queueOf_appendItem h hd
    rw [exec_push_fits hp hd, queueCommand, if_neg hfits, ← happend, ← appendItem_port d s]
    exact refines_respond _ _ _ (appendItem_inv h d)

theorem exec_pop_refines {s : State} (h : BlockInv s) (hp : s.port = .consumer) :
    Refines s.port (exec .pop s) (queueCommand s.itemBits .pop (queueOf s)) := by
  cases he : isEmpty s with
  | true =>
    have hq : queueCommand s.itemBits .pop (queueOf s) = (okNothing, queueOf s) := by
      simp [queueCommand, queueOf, contents_of_isEmpty he]
    rw [exec_pop_empty hp he, hq]
    exact refines_respond _ _ _ h
  | false =>
    have h0 := occupancy_ne_zero_of_not_isEmpty he
    have hq : queueCommand s.itemBits .pop (queueOf s) =
        (okValue (itemValue (oldestItem s)), queueOf (advanceRd s)) := by
      simp [queueCommand, queueOf, contents_advanceRd h0, itemValue]
    rw [exec_pop_item hp he, hq]
    exact refines_respond _ _ _ (advanceRd_inv h h0)

/-! ### The status commands: the queue's values are the machine's -/

theorem ofNat_contents_length (s : State) : BitVec.ofNat 32 (contents s).length = occupancy s := by
  rw [contents_length, BitVec.ofNat_toNat, BitVec.setWidth_eq]

theorem ofNat_two_pow_exp (s : State) : BitVec.ofNat 32 (2 ^ s.exp.toNat) = capacity s := by
  rw [← capacity_toNat, BitVec.ofNat_toNat, BitVec.setWidth_eq]

theorem queueCommand_len (s : State) : queueCommand s.itemBits .len (queueOf s) = (okValue (occupancy s), queueOf s) := by
  rw [queueCommand, queueOf, ofNat_contents_length]

theorem queueCommand_cap (s : State) : queueCommand s.itemBits .cap (queueOf s) = (okValue (capacity s), queueOf s) := by
  rw [queueCommand, queueOf, ofNat_two_pow_exp]

theorem queueCommand_full (s : State) :
    queueCommand s.itemBits .full (queueOf s) = (okValue (flagValue (isFull s)), queueOf s) := by
  simp only [queueCommand, queueOf, contents_length, flagValue, isFull_iff_occupancy]

theorem queueCommand_free (s : State) :
    queueCommand s.itemBits .free (queueOf s) = (okValue (flagValue (hasFree s)), queueOf s) := by
  simp only [queueCommand, queueOf, contents_length, flagValue, hasFree_iff_occupancy]

/-! ### Any command, any word -/

/-- A command on a port that may issue it refines the queue's command. -/
theorem exec_refines {i : Instr} {s : State} (h : BlockInv s) (hm : mayIssue i s.port = true) :
    Refines s.port (exec i s) (queueCommand s.itemBits i (queueOf s)) := by
  cases i with
  | config e => exact exec_config_refines h e (mayIssue_config.1 hm)
  | push d => exact exec_push_refines h d (mayIssue_push.1 hm)
  | pop => exact exec_pop_refines h (mayIssue_pop.1 hm)
  | len => exact queueCommand_len s ▸ refines_respond .ok true _ h
  | cap => exact queueCommand_cap s ▸ refines_respond .ok true _ h
  | full => exact queueCommand_full s ▸ refines_respond .ok true _ h
  | free => exact queueCommand_free s ▸ refines_respond .ok true _ h

/-- Any word on any port refines the queue's answer to it. -/
theorem issue_refines (p : Port) (w : Word) {s : State} (h : BlockInv s) :
    Refines p (issue p w s) (queueExec s.itemBits p w (queueOf s)) := by
  have hs := withPort_inv p h
  have hillegal : Refines p (.next (respond .illegalCommand false 0#32 (withPort p s)))
      (errorResponse .illegalCommand, queueOf s) :=
    queueOf_withPort p s ▸ refines_respond .illegalCommand false 0#32 hs
  cases hd : decode w with
  | error r =>
    rw [issue_error hd]
    simpa only [queueExec, hd] using hillegal
  | ok i =>
    rw [issue_ok hd]
    cases hm : mayIssue i p with
    | false =>
      rw [exec_refused (s := withPort p s) hm]
      simpa [queueExec, hd, hm] using hillegal
    | true =>
      have hexec := exec_refines hs hm
      simpa [queueExec, hd, hm, queueOf_withPort] using hexec

/-- Settles O36: `issue_refines`, said with the relation written out. -/
theorem commandRefinesQueue : Obligations.CommandRefinesQueue :=
  fun p w _ h => issue_refines p w h

end Sys2Proof.Machine
end

section
/-! Both counters moved on by a multiple of CAP (70_reset_and_hazards.md R148): every shared operation but CONFIG's commutes with the
move, and no flag, slot or response depends on it. -/

namespace Sys2Proof.Machine

/-! ### The views and operations under a move -/

@[simp] theorem occupancy_shiftCounters (d : Counter) (s : State) : occupancy (shiftCounters d s) = occupancy s := by
  simp only [occupancy, shiftCounters, add_sub_add_right_eq_sub]

@[simp] theorem isEmpty_shiftCounters (d : Counter) (s : State) : isEmpty (shiftCounters d s) = isEmpty s := by
  rw [isEmpty, occupancy_shiftCounters, isEmpty]

@[simp] theorem capacity_shiftCounters (d : Counter) (s : State) : capacity (shiftCounters d s) = capacity s := rfl

@[simp] theorem isFull_shiftCounters (d : Counter) (s : State) : isFull (shiftCounters d s) = isFull s := by
  rw [isFull, occupancy_shiftCounters, capacity_shiftCounters, isFull]

@[simp] theorem hasFree_shiftCounters (d : Counter) (s : State) : hasFree (shiftCounters d s) = hasFree s := by
  rw [hasFree, occupancy_shiftCounters, capacity_shiftCounters, hasFree]

theorem advanceRd_shiftCounters (d : Counter) (s : State) :
    advanceRd (shiftCounters d s) = shiftCounters d (advanceRd s) := by
  simp only [advanceRd, shiftCounters, add_right_comm]

theorem advanceWr_shiftCounters (d : Counter) (s : State) :
    advanceWr (shiftCounters d s) = shiftCounters d (advanceWr s) := by
  simp only [advanceWr, shiftCounters, add_right_comm]

/-- CONFIG sets the counters, so it forgets the move. -/
theorem configure_shiftCounters (e : BitVec 8) (d : Counter) (s : State) :
    configure e (shiftCounters d s) = configure e s := rfl

theorem evictIfFull_shiftCounters (d : Counter) (s : State) :
    evictIfFull (shiftCounters d s) = shiftCounters d (evictIfFull s) := by
  simp only [evictIfFull, isFull_shiftCounters, advanceRd_shiftCounters]
  split <;> rfl

/-- The slot written is the same: a move by a multiple of CAP changes no slot. -/
theorem appendItem_shiftCounters {d : Counter} {s : State} (hd : d.toNat % 2 ^ s.exp.toNat = 0) (v : BitVec 16) :
    appendItem v (shiftCounters d s) = shiftCounters d (appendItem v s) := by
  have hslot : slotOf (shiftCounters d s).exp (shiftCounters d s).wr = slotOf s.exp s.wr := slotOf_add_multiple hd s.wr
  rw [appendItem, hslot, evictIfFull_shiftCounters]
  exact advanceWr_shiftCounters d (storeWrite (slotOf s.exp s.wr) (itemOf s.itemBits v) (evictIfFull s))

/-- The slot read is the same. -/
theorem oldestItem_shiftCounters {d : Counter} {s : State} (hd : d.toNat % 2 ^ s.exp.toNat = 0) :
    oldestItem (shiftCounters d s) = oldestItem s := by
  have hslot : slotOf (shiftCounters d s).exp (shiftCounters d s).rd = slotOf s.exp s.rd := slotOf_add_multiple hd s.rd
  rw [oldestItem, hslot]
  rfl

/-! ### Answers under a move -/

/-- The second answer is the first one with both counters moved on by `d`. -/
def ShiftedBy (d : Counter) (a b : Answer) : Prop := ∃ t, a = .next t ∧ b = .next (shiftCounters d t)

theorem shiftedBy_respond (d : Counter) (st : Status) (vld : Bool) (val : Word) (s : State) :
    ShiftedBy d (.next (respond st vld val s)) (.next (respond st vld val (shiftCounters d s))) :=
  ⟨_, rfl, rfl⟩

theorem exec_push_shiftedBy {d : Counter} {s : State} (hd : d.toNat % 2 ^ s.exp.toNat = 0) (v : BitVec 16)
    (hp : s.port = .producer) : ShiftedBy d (exec (.push v) s) (exec (.push v) (shiftCounters d s)) := by
  cases hv : itemTooWide s.itemBits v with
  | true =>
    rw [exec_push_tooWide hp hv, exec_push_tooWide (s := shiftCounters d s) hp hv]
    exact shiftedBy_respond ..
  | false =>
    rw [exec_push_fits hp hv, exec_push_fits (s := shiftCounters d s) hp hv, appendItem_shiftCounters hd]
    exact shiftedBy_respond ..

theorem exec_pop_shiftedBy {d : Counter} {s : State} (hd : d.toNat % 2 ^ s.exp.toNat = 0) (hp : s.port = .consumer) :
    ShiftedBy d (exec .pop s) (exec .pop (shiftCounters d s)) := by
  have hempty := isEmpty_shiftCounters d s
  cases he : isEmpty s with
  | true =>
    rw [exec_pop_empty hp he, exec_pop_empty (s := shiftCounters d s) hp (hempty.trans he)]
    exact shiftedBy_respond ..
  | false =>
    rw [exec_pop_item hp he, exec_pop_item (s := shiftCounters d s) hp (hempty.trans he), oldestItem_shiftCounters hd,
      advanceRd_shiftCounters]
    exact shiftedBy_respond ..

theorem exec_status_shiftedBy {i : Instr} (hi : i = .len ∨ i = .cap ∨ i = .full ∨ i = .free) (d : Counter) (s : State) :
    ShiftedBy d (exec i s) (exec i (shiftCounters d s)) := by
  rcases hi with rfl | rfl | rfl | rfl <;>
    simp only [exec, execLen, execCap, execFull, execFree, occupancy_shiftCounters, capacity_shiftCounters,
      isFull_shiftCounters, hasFree_shiftCounters] <;>
    exact shiftedBy_respond ..

/-- A command other than an accepted CONFIG gives the same answer but for the move. -/
theorem exec_shiftedBy {d : Counter} {i : Instr} {s : State} (hd : d.toNat % 2 ^ s.exp.toNat = 0)
    (hc : ∀ e, i = .config e → s.port = .host → exponentOk e = false) :
    ShiftedBy d (exec i s) (exec i (shiftCounters d s)) := by
  cases hm : mayIssue i s.port with
  | false =>
    rw [exec_refused hm, exec_refused (s := shiftCounters d s) hm]
    exact shiftedBy_respond ..
  | true =>
    cases i with
    | config e =>
      have hp := mayIssue_config.1 hm
      rw [exec_config_rejected hp (hc e rfl hp), exec_config_rejected (s := shiftCounters d s) hp (hc e rfl hp)]
      exact shiftedBy_respond ..
    | push v => exact exec_push_shiftedBy hd v (mayIssue_push.1 hm)
    | pop => exact exec_pop_shiftedBy hd (mayIssue_pop.1 hm)
    | len => exact exec_status_shiftedBy (by simp) d s
    | cap => exact exec_status_shiftedBy (by simp) d s
    | full => exact exec_status_shiftedBy (by simp) d s
    | free => exact exec_status_shiftedBy (by simp) d s

/-- The same for any word on any port. -/
theorem issue_shiftedBy {d : Counter} {p : Port} {w : Word} {s : State} (hd : d.toNat % 2 ^ s.exp.toNat = 0)
    (hc : configures p w = false) : ShiftedBy d (issue p w s) (issue p w (shiftCounters d s)) := by
  cases hw : decode w with
  | error r =>
    rw [issue_error hw, issue_error hw]
    exact shiftedBy_respond d .illegalCommand false 0#32 (withPort p s)
  | ok i =>
    rw [issue_ok hw, issue_ok hw]
    refine exec_shiftedBy (s := withPort p s) hd ?_
    rintro e rfl hp
    rw [← Bool.not_eq_true]
    intro he
    have := (configures_iff p w).2 ⟨e, hw, hp, he⟩
    simp [hc] at this

/-- After an accepted CONFIG nothing is left of the move. -/
theorem issue_config_shiftCounters {p : Port} {w : Word} (hc : configures p w = true) (d : Counter) (s : State) :
    ∃ t, issue p w s = .next t ∧ issue p w (shiftCounters d s) = .next t := by
  obtain ⟨e, hw, rfl, he⟩ := (configures_iff p w).1 hc
  rw [issue_ok hw, issue_ok hw, exec_config_accepted rfl he, exec_config_accepted rfl he]
  exact ⟨_, rfl, rfl⟩

/-- Settles O41: an accepted CONFIG sets the counters, any other command keeps the move. -/
theorem counterShiftUnobservable : Obligations.CounterShiftUnobservable := by
  intro d p w s hd
  cases hc : configures p w with
  | true =>
    obtain ⟨t, ht, hu⟩ := issue_config_shiftCounters hc d s
    exact ⟨t, t, ht, hu, rfl, rfl⟩
  | false =>
    obtain ⟨t, ht, hu⟩ := issue_shiftedBy hd hc
    exact ⟨t, shiftCounters d t, ht, hu, rfl, rfl⟩

end Sys2Proof.Machine
end

section
/-! The step and the command that it runs (00_scope.md R12, 60_exceptions.md R131). -/

namespace Sys2Proof.Machine

/-- Settles O26: whatever the turn, `step_cases` names the next state. -/
theorem everyStepCompletes : Obligations.EveryStepCompletes := fun s =>
  let ⟨t, ht, _⟩ := step_cases s
  ⟨t, ht⟩

theorem step_of_no_turns {s : State} (h : s.turns = []) : step s = .next s := by
  rw [step, takeTurn, h]

/-- A port that presents nothing uses its turn up (log 8). -/
theorem step_of_nothing_presented {s : State} {p : Port} {us : List Turn} (hs : s.turns = .port p :: us)
    (hp : presented p (settle p (withTurns us s)) = none) : step s = .next (settle p (withTurns us s)) := by
  simp only [step, takeTurn, hs, servePort, hp]

/-- A port that presents a word has it executed and answered in its turn. -/
theorem step_of_presented {s : State} {p : Port} {us : List Turn} {w : Word} (hs : s.turns = .port p :: us)
    (hp : presented p (settle p (withTurns us s)) = some w) :
    step s = handBack p (issue p w (settle p (withTurns us s))) := by
  simp only [step, takeTurn, hs, servePort, hp]

/-- Settles O27, one clause for each kind of turn. -/
theorem stepRunsDecodedCommand : Obligations.StepRunsDecodedCommand := by
  refine ⟨?_, ?_, fun s p us hs hp => step_of_nothing_presented hs hp, fun s => step_of_no_turns⟩
  · intro s p us w i hs hw hd
    exact (step_of_presented hs hw).trans (congrArg (handBack p) (issue_ok hd p _))
  · intro s p us w x hs hw hd
    exact (step_of_presented hs hw).trans (congrArg (handBack p) (issue_error hd p _))

/-! ### The placed word -/

/-- A word that decodes carries the opcode of its command (30_encoding.md R62). -/
theorem opField_of_decode {w : Word} {i : Instr} (h : decode w = .ok i) : opField w = opcodeOf i := by
  unfold decode at h
  split_ifs at h with hres hrsv harg hdata h1 h2 h3 h4 h5 h6 <;> cases h
  case neg =>
    rw [opcodeOf]
    bv_omega
  all_goals assumption

theorem mayIssue_homePort {w : Word} {i : Instr} (h : decode w = .ok i) : mayIssue i (homePort w) = true := by
  rw [homePort, opField_of_decode h]
  cases i <;> rfl

theorem tableWord_toNat (w : Word) : tableWord 32 w.toNat = w := by
  rw [tableWord, Nat.mod_eq_of_lt w.isLt, BitVec.ofNat_toNat, BitVec.setWidth_eq]

/-- An agent with a raw word in front of its work has no burst to retire there. -/
theorem settle_giveWord (p : Port) (w : Word) (s : State) : settle p (giveWord p w s) = giveWord p w s := by
  cases p <;> rfl

theorem presented_giveWord (p : Port) (w : Word) (s : State) : presented p (giveWord p w s) = some w := by
  cases p <;> rfl

/-- The step after a load runs the word loaded, the schedule being the one before the load. -/
theorem step_loadCommand (p : Port) (w : Word) (s : State) :
    step (loadCommand p w s) = handBack p (issue p w (giveWord p w s)) := by
  have hturns : withTurns s.turns (loadCommand p w s) = giveWord p w s := by cases p <;> rfl
  have hsettle := settle_giveWord p w s
  have hstep := step_of_presented (s := loadCommand p w s) (p := p) (us := s.turns) (w := w) rfl
    (by rw [hturns, hsettle, presented_giveWord])
  rwa [hturns, hsettle] at hstep

/-- Settles O28: the port is the word's home port. -/
theorem placedWordRunsNext : Obligations.PlacedWordRunsNext := by
  intro s w i hd
  refine ⟨homePort w, mayIssue_homePort hd, ?_⟩
  rw [State.withFetchWord, tableWord_toNat, step_loadCommand, issue_ok hd]
  rfl

end Sys2Proof.Machine
end

section
/-! The invariant along commands, steps and resets (10_state.md R22, R25, R26, R28). -/

namespace Sys2Proof.Machine

/-- A command keeps the invariant. -/
theorem issue_inv {p : Port} {w : Word} {s t : State} (h : BlockInv s) (ht : issue p w s = .next t) : BlockInv t := by
  obtain ⟨t', ht', hinv, -⟩ := issue_refines p w h
  rw [ht] at ht'
  cases ht'
  exact hinv

theorem withTurns_inv (us : List Turn) {s : State} (h : BlockInv s) : BlockInv (withTurns us s) :=
  inv_congr (s := s) rfl rfl rfl rfl rfl h

theorem settle_inv (p : Port) {s : State} (h : BlockInv s) : BlockInv (settle p s) :=
  inv_congr (settle_itemBits p s) (settle_exp p s) (settle_rd p s) (settle_wr p s) (settle_store p s) h

theorem deliver_inv (p : Port) (r : Response) {s : State} (h : BlockInv s) : BlockInv (deliver p r s) :=
  inv_congr (deliver_itemBits p r s) (deliver_exp p r s) (deliver_rd p r s) (deliver_wr p r s) (deliver_store p r s) h

/-- Settles O25: a turn is no command, a reset, or one command between two changes of the agents. -/
theorem stepKeepsInvariant : Obligations.StepKeepsInvariant := by
  intro s t h ht
  obtain ⟨t', ht', hcases⟩ := step_cases s
  rw [ht] at ht'
  cases ht'
  rcases hcases with ⟨-, rfl⟩ | ⟨us, -, rfl⟩ | ⟨p, us, -, -, rfl⟩ | ⟨p, us, w, u, r, -, -, hu, -, rfl⟩
  · exact h
  · exact resetBlock_inv _
  · exact settle_inv p (withTurns_inv us h)
  · exact deliver_inv p r (issue_inv (settle_inv p (withTurns_inv us h)) hu)

/-- Settles O24: the machine after reset is a block just reset, but for the era. -/
theorem resetMeetsInvariant : Obligations.ResetMeetsInvariant :=
  inv_congr (s := resetBlock State.reset) rfl rfl rfl rfl rfl (resetBlock_inv State.reset)

/-! ### The slot that a POP reads -/

/-- Every item listed in a canonical store fits the item width. -/
theorem itemOf_of_storeFind {width : ItemWidth} {k : Nat} {v : Item} (m : Store) :
    ∀ low, storeWfFrom width low m = true → storeFind k m = some v → itemOf width v = v := by
  induction m with
  | nil => intro low _ hv; cases hv
  | cons e rest ih =>
    obtain ⟨j, u⟩ := e
    intro low hm hv
    obtain ⟨-, -, hu, hrest⟩ := (storeWfFrom_cons ..).1 hm
    rw [storeFind] at hv
    split at hv
    · cases hv
      exact hu
    · exact ih _ hrest hv

/-- The oldest item held is the one listed for its slot. -/
theorem oldestItem_written {s : State} (h : BlockInv s) (h0 : (occupancy s).toNat ≠ 0) :
    storeFind (slotOf s.exp s.rd).toNat s.store = some (oldestItem s) := by
  have hwritten := h.windowWritten 0 (Nat.pos_of_ne_zero h0)
  rw [slotAt_zero] at hwritten
  obtain ⟨v, hv⟩ := Option.isSome_iff_exists.1 hwritten
  rw [oldestItem, storeRead, hv, Option.getD_some, itemOf_of_storeFind s.store 0 h.storeCanonical hv]

/-- Settles O39: the slot at the head of the window is written. -/
theorem popReadsAWrittenSlot : Obligations.PopReadsAWrittenSlot := by
  intro s h hp he
  have h0 := occupancy_ne_zero_of_not_isEmpty he
  refine ⟨oldestItem s, _, oldestItem_written h h0, exec_pop_item hp he, ?_, ?_⟩
  · rw [respond_resp, advanceRd_port, hp, itemValue, okValue]
  · rw [respond_contents, contents_advanceRd h0]

end Sys2Proof.Machine
end

section
/-! Schedules of commands: the block against the bounded queue, and what enters and leaves along a schedule (10_state.md R27,
20_memory.md R48). -/

namespace Sys2Proof.Machine

/-! ### One command more -/

theorem runCommands_cons {p : Port} {w : Word} {cs : List (Port × Word)} {s u : State} {r : Response}
    (hu : issue p w s = .next u) (hr : u.resp = some (p, r)) :
    runCommands ((p, w) :: cs) s = (runCommands cs u).map fun h => (r :: h.1, h.2) := by
  simp only [runCommands, hu, hr]

theorem departures_cons {p : Port} {w : Word} {s u : State} (hu : issue p w s = .next u) (cs : List (Port × Word)) :
    departures ((p, w) :: cs) s = departure p w s ++ departures cs u := by
  simp only [departures, hu]

theorem arrivals_cons (width : ItemWidth) (p : Port) (w : Word) (cs : List (Port × Word)) :
    arrivals width ((p, w) :: cs) = arrival width p w ++ arrivals width cs := rfl

theorem poppedValues_cons (c : Port × Word) (r : Response) (cs : List (Port × Word)) (rs : List Response) :
    poppedValues (c :: cs) (r :: rs) = poppedValues [c] [r] ++ poppedValues cs rs := by
  rw [poppedValues, poppedValues, poppedValues, ← List.filterMap_append]
  rfl

/-- Every schedule runs to its end. -/
theorem runCommands_total (cs : List (Port × Word)) (s : State) : ∃ rs t, runCommands cs s = some (rs, t) := by
  induction cs generalizing s with
  | nil => exact ⟨[], s, rfl⟩
  | cons c cs ih =>
    obtain ⟨u, hu, -⟩ := issue_cases c.1 c.2 s
    obtain ⟨r, hr⟩ := issue_resp hu
    obtain ⟨rs, t, hrun⟩ := ih u
    exact ⟨r :: rs, t, by rw [runCommands_cons hu hr, hrun, Option.map_some]⟩

/-- A run of a schedule is its first command and then a run of the others. -/
theorem runCommands_cons_inv {p : Port} {w : Word} {cs : List (Port × Word)} {s t : State} {rs : List Response}
    (h : runCommands ((p, w) :: cs) s = some (rs, t)) :
    ∃ u r rs', issue p w s = .next u ∧ u.resp = some (p, r) ∧ runCommands cs u = some (rs', t) ∧ rs = r :: rs' := by
  obtain ⟨u, hu, -⟩ := issue_cases p w s
  obtain ⟨r, hr⟩ := issue_resp hu
  rw [runCommands_cons hu hr, Option.map_eq_some_iff] at h
  obtain ⟨⟨rs', t'⟩, hrun, heq⟩ := h
  cases heq
  exact ⟨u, r, rs', hu, hr, hrun, rfl⟩

/-! ### The bounded queue -/

/-- Settles O37, by induction on the schedule: each command refines the queue's and keeps the invariant. -/
theorem everyScheduleRefinesQueue : Obligations.EveryScheduleRefinesQueue := by
  intro cs
  induction cs with
  | nil => exact fun s h => ⟨[], s, rfl, h, rfl⟩
  | cons c cs ih =>
    obtain ⟨p, w⟩ := c
    intro s h
    obtain ⟨u, hu, hinv, hresp, hqueue⟩ := issue_refines p w h
    obtain ⟨hwidth, -⟩ := issue_frame hu
    obtain ⟨rs, t, hrun, htinv, hqrun⟩ := ih u hinv
    refine ⟨_ :: rs, t, by rw [runCommands_cons hu hresp, hrun, Option.map_some], htinv, ?_⟩
    rw [hwidth, hqueue] at hqrun
    simp only [queueRun, hqrun]

/-! ### What enters and what leaves -/

/-- What an eviction drops from the window is the oldest item. -/
theorem contents_eq_evicted_append {s : State} (h : BlockInv s) :
    contents s = (if isFull s then [oldestItem s] else []) ++ contents (evictIfFull s) := by
  obtain ⟨hcap, -, -⟩ := h.bounds
  unfold evictIfFull
  split
  · rename_i hf
    rw [isFull_iff_occupancy] at hf
    exact contents_advanceRd (by omega)
  · rfl

/-- PUSH adds its item behind what the eviction leaves. -/
theorem contents_appendItem_eq_append {s : State} (h : BlockInv s) (d : BitVec 16) :
    contents (appendItem d s) = contents (evictIfFull s) ++ [itemOf s.itemBits d] := by
  rw [appendItem_eq, contents_put (evictIfFull_lt h) (evictIfFull_inv h).expLegal.2, evictIfFull_itemBits, itemOf_itemOf]

/-- What was held and what a command adds is what leaves and what is held after it. -/
theorem issue_conserves {p : Port} {w : Word} {s t : State} (h : BlockInv s) (hc : configures p w = false)
    (ht : issue p w s = .next t) :
    contents s ++ arrival s.itemBits p w = (departure p w s).map (fun x => x.1) ++ contents t := by
  have kept : ∀ st vld val, contents (respond st vld val (withPort p s)) = contents s := fun st vld val => by
    rw [respond_contents, withPort_contents]
  obtain ⟨t', ht', hcases⟩ := issue_cases p w s
  rw [ht] at ht'
  cases ht'
  rcases hcases with ⟨st, -, rfl, -, ha, hd⟩ | ⟨e, -, -, -, -, hc', -⟩ | ⟨d, -, -, -, rfl, -, ha, hd⟩ |
    ⟨-, -, -, rfl, -, ha, hd⟩ | ⟨-, -, he, rfl, -, ha, hd⟩ | ⟨v, rfl, -, ha, hd, -⟩
  · rw [ha, hd, kept, List.append_nil, List.map_nil, List.nil_append]
  · simp [hc] at hc'
  · have hinv := withPort_inv p h
    have hleft : contents s = (departure p w s).map (fun x => x.1) ++ contents (evictIfFull (withPort p s)) := by
      rw [hd, apply_ite (List.map _), ← withPort_contents p s]
      exact contents_eq_evicted_append hinv
    rw [ha, respond_contents, contents_appendItem_eq_append hinv, ← List.append_assoc, ← hleft, withPort_itemBits]
  · rw [ha, hd, kept, List.append_nil, List.map_nil, List.nil_append]
  · have h0 := occupancy_ne_zero_of_not_isEmpty he
    rw [ha, hd, respond_contents, List.append_nil, ← withPort_contents p s]
    exact contents_advanceRd (s := withPort p s) h0
  · rw [ha, hd, kept, List.append_nil, List.map_nil, List.nil_append]

/-- The same along a schedule without an accepted CONFIG. -/
theorem runCommands_conserves {cs : List (Port × Word)} {s t : State} {rs : List Response} (h : BlockInv s)
    (hc : ∀ c ∈ cs, configures c.1 c.2 = false) (hrun : runCommands cs s = some (rs, t)) :
    contents s ++ arrivals s.itemBits cs = (departures cs s).map (fun x => x.1) ++ contents t := by
  induction cs generalizing s rs with
  | nil =>
    cases hrun
    exact List.append_nil _
  | cons c cs ih =>
    obtain ⟨p, w⟩ := c
    obtain ⟨u, r, rs', hu, -, hrest, -⟩ := runCommands_cons_inv hrun
    obtain ⟨hc1, hc2⟩ := List.forall_mem_cons.1 hc
    obtain ⟨hwidth, -⟩ := issue_frame hu
    have hone := issue_conserves h hc1 hu
    have hmany := ih (issue_inv h hu) hc2 hrest
    rw [hwidth] at hmany
    rw [arrivals_cons, departures_cons hu, List.map_append, ← List.append_assoc, hone, List.append_assoc, hmany,
      List.append_assoc]

/-- A word with RSV zero is its three other fields put together (30_encoding.md R60). -/
theorem packWord_fields {w : Word} (h : rsvField w = 0x0#4) : packWord (dataField w) (argField w) (opField w) = w := by
  rw [packWord, ← h, dataField, argField, rsvField, opField]
  rw [BitVec.extractLsb'_append_extractLsb'_eq_extractLsb' (start₁ := 0) (len₁ := 4) rfl,
    BitVec.extractLsb'_append_extractLsb'_eq_extractLsb' (start₁ := 0) (len₁ := 8) rfl,
    BitVec.extractLsb'_append_extractLsb'_eq_extractLsb' (start₁ := 0) (len₁ := 16) rfl]
  exact BitVec.extractLsb'_eq_self

/-- POP is the word 3 (42_fetch.md R100). -/
theorem decode_pop_iff (w : Word) : decode w = .ok .pop ↔ w = 0x3#32 := by
  refine ⟨fun h => ?_, fun h => h ▸ rfl⟩
  unfold decode at h
  split_ifs at h with hres hrsv harg hdata h1 h2 h3 <;> cases h
  have ha : argField w = 0x0#8 := by simpa [h3] using harg
  have hd : dataField w = 0x0#16 := by simpa [h3] using hdata
  rw [← packWord_fields (not_not.1 hrsv), ha, hd, h3]
  rfl

/-- A response without a value pops nothing. -/
theorem poppedValues_of_not_valid (c : Port × Word) {r : Response} (hv : r.vld = false) : poppedValues [c] [r] = [] := by
  simp [poppedValues, hv]

/-- The value a command pops is the item that leaves by a POP. -/
theorem poppedValues_single {p : Port} {w : Word} {s t : State} {r : Response} (ht : issue p w s = .next t)
    (hr : t.resp = some (p, r)) :
    poppedValues [(p, w)] [r] =
      ((departure p w s).filter fun x => x.2 == .popped).map (fun x => x.1.setWidth 32) := by
  obtain ⟨t', ht', hcases⟩ := issue_cases p w s
  rw [ht] at ht'
  cases ht'
  rcases hcases with ⟨st, -, rfl, -, -, hd⟩ | ⟨e, -, -, -, rfl, -, -, hd⟩ | ⟨d, -, -, -, rfl, -, -, hd⟩ |
    ⟨-, -, -, rfl, -, -, hd⟩ | ⟨hw, rfl, -, rfl, -, -, hd⟩ | ⟨v, rfl, -, -, hd, hw⟩ <;>
    rw [respond_resp, Option.some_inj, Prod.mk.injEq] at hr <;> obtain ⟨-, rfl⟩ := hr <;> rw [hd]
  · exact poppedValues_of_not_valid _ rfl
  · exact poppedValues_of_not_valid _ rfl
  · rw [poppedValues_of_not_valid _ rfl]
    split <;> rfl
  · exact poppedValues_of_not_valid _ rfl
  · rw [(decode_pop_iff w).1 hw]
    rfl
  · have hne : w ≠ 0x3#32 := by
      rw [Ne, ← decode_pop_iff]
      rcases hw with ⟨hw, -⟩ | ⟨hw, -⟩ | ⟨hw, -⟩ | ⟨hw, -⟩ <;> rw [hw] <;> nofun
    simp [poppedValues, hne]

/-- The values popped along a schedule are the items that leave by a POP. -/
theorem poppedValues_eq_departures {cs : List (Port × Word)} {s t : State} {rs : List Response}
    (hrun : runCommands cs s = some (rs, t)) :
    poppedValues cs rs = ((departures cs s).filter fun x => x.2 == .popped).map (fun x => x.1.setWidth 32) := by
  induction cs generalizing s rs with
  | nil => rfl
  | cons c cs ih =>
    obtain ⟨p, w⟩ := c
    obtain ⟨u, r, rs', hu, hr, hrest, rfl⟩ := runCommands_cons_inv hrun
    rw [poppedValues_cons, poppedValues_single hu hr, ih hrest, departures_cons hu, List.filter_append, List.map_append]

/-- Settles O38: the items that left come first in push order, and the popped ones are some of them. -/
theorem fifoOrderWithEvictions : Obligations.FifoOrderWithEvictions := by
  intro cs s h hc
  obtain ⟨rs, t, hrun⟩ := runCommands_total cs s
  have hconserve := runCommands_conserves h hc hrun
  have hpopped := poppedValues_eq_departures hrun
  refine ⟨rs, t, hrun, hconserve, hpopped, ?_⟩
  rw [hpopped, hconserve, List.map_append, List.map_map]
  exact (List.filter_sublist.map _).trans (List.sublist_append_left ..)

end Sys2Proof.Machine
end

section
/-! Who writes what of the block's state, and by how much (10_state.md R20, R21, R22, 60_exceptions.md R132). -/

namespace Sys2Proof.Machine

/-- What one command of port `p` writes of the registers and the store: nothing, an accepted CONFIG's values, a PUSH's counters, or
a POP's counter. -/
inductive CommandWrites (p : Port) (w : Word) (s t : State) : Prop where
  | nothing (hc : configures p w = false) (hexp : t.exp = s.exp) (hrd : t.rd = s.rd) (hwr : t.wr = s.wr)
      (hstore : t.store = s.store)
  | config (e : BitVec 8) (hd : decode w = .ok (.config e)) (hp : p = .host) (he : exponentOk e = true)
      (hc : configures p w = true) (hexp : t.exp = e.setWidth 5) (hrd : t.rd = 0#32) (hwr : t.wr = 0#32)
      (hstore : t.store = s.store)
  | push (d : BitVec 16) (hd : decode w = .ok (.push d)) (hp : p = .producer) (hc : configures p w = false)
      (hexp : t.exp = s.exp) (hrd : t.rd = s.rd ∨ (t.rd = s.rd + 1#32 ∧ isFull s = true)) (hwr : t.wr = s.wr + 1#32)
  | pop (hd : decode w = .ok .pop) (hp : p = .consumer) (h0 : isEmpty s = false) (hc : configures p w = false)
      (hexp : t.exp = s.exp) (hrd : t.rd = s.rd + 1#32) (hwr : t.wr = s.wr) (hstore : t.store = s.store)

/-- PUSH moves `rd` on a full buffer only. -/
theorem appendItem_rd (d : BitVec 16) (s : State) :
    (appendItem d s).rd = s.rd ∨ ((appendItem d s).rd = s.rd + 1#32 ∧ isFull s = true) := by
  rw [appendItem, advanceWr_rd, storeWrite_rd, evictIfFull]
  split
  · rename_i hf
    exact .inr ⟨rfl, hf⟩
  · exact .inl rfl

theorem appendItem_wr (d : BitVec 16) (s : State) : (appendItem d s).wr = s.wr + 1#32 := by
  rw [appendItem, advanceWr_wr, storeWrite_wr, evictIfFull]
  split <;> rfl

theorem issue_writes {p : Port} {w : Word} {s t : State} (ht : issue p w s = .next t) : CommandWrites p w s t := by
  obtain ⟨t', ht', hcases⟩ := issue_cases p w s
  rw [ht] at ht'
  cases ht'
  rcases hcases with ⟨st, -, rfl, hc, -⟩ | ⟨e, hd, hp, he, rfl, hc, -⟩ | ⟨d, hd, hp, -, rfl, hc, -⟩ |
    ⟨-, -, -, rfl, hc, -⟩ | ⟨hd, hp, h0, rfl, hc, -⟩ | ⟨v, rfl, hc, -⟩
  · exact .nothing hc rfl rfl rfl rfl
  · exact .config e hd hp he hc rfl rfl rfl rfl
  · exact .push d hd hp hc (appendItem_exp d _) (appendItem_rd d (withPort p s)) (appendItem_wr d _)
  · exact .nothing hc rfl rfl rfl rfl
  · exact .pop hd hp h0 hc rfl rfl rfl rfl
  · exact .nothing hc rfl rfl rfl rfl

/-- Settles O30, command by command; a counter wraps because it has 32 bits. -/
theorem countersMoveOnlyByOneOrToZero : Obligations.CountersMoveOnlyByOneOrToZero := by
  refine ⟨fun p w s t ht => ?_, rfl⟩
  cases issue_writes ht with
  | nothing hc hexp hrd hwr hstore => exact ⟨.inl hwr, .inl hrd, by simp [hc]⟩
  | config e hd hp he hc hexp hrd hwr hstore =>
    exact ⟨.inr (.inr ⟨hwr, hc⟩), .inr (.inr ⟨hrd, hc⟩), fun _ => ⟨hrd, hwr⟩⟩
  | push d hd hp hc hexp hrd hwr =>
    exact ⟨.inr (.inl ⟨hwr, hp, d, hd⟩), hrd.imp_right fun ⟨hmove, hfull⟩ => .inl ⟨hmove, .inr ⟨hp, hfull, d, hd⟩⟩,
      by simp [hc]⟩
  | pop hd hp h0 hc hexp hrd hwr hstore => exact ⟨.inl hwr, .inr (.inl ⟨hrd, .inl ⟨hp, hd⟩⟩), by simp [hc]⟩

/-- The exponent of a CONFIG is the word's ARG field (30_encoding.md R61). -/
theorem argField_of_decode_config {w : Word} {e : BitVec 8} (h : decode w = .ok (.config e)) : e = argField w := by
  unfold decode at h
  split_ifs at h <;> cases h
  rfl

/-- An accepted exponent fits the 5 bits of `exp`. -/
theorem setWidth_exponent_toNat {e : BitVec 8} (he : exponentOk e = true) : (e.setWidth 5).toNat = e.toNat := by
  obtain ⟨-, h16⟩ := (exponentOk_iff e).1 he
  rw [BitVec.toNat_setWidth]
  omega

/-- A command that is no accepted CONFIG leaves `exp` alone. -/
theorem issue_exp_unchanged {p : Port} {w : Word} {s t : State} (hc : configures p w = false)
    (ht : issue p w s = .next t) : t.exp = s.exp := by
  cases issue_writes ht with
  | config e hd hp he hc' => simp [hc] at hc'
  | nothing _ hexp => exact hexp
  | push _ _ _ _ hexp => exact hexp
  | pop _ _ _ _ hexp => exact hexp

/-- Settles O31: an accepted CONFIG writes its own exponent. -/
theorem exponentWrittenOnlyByConfig : Obligations.ExponentWrittenOnlyByConfig := by
  intro p w s t ht
  refine ⟨fun hc => issue_exp_unchanged hc ht, fun hc => ?_⟩
  obtain ⟨e, hd, rfl, he⟩ := (configures_iff p w).1 hc
  rw [issue_ok hd, exec_config_accepted rfl he] at ht
  cases ht
  rw [respond_exp, configure_exp, setWidth_exponent_toNat he]
  exact ⟨congrArg BitVec.toNat (argField_of_decode_config hd), (exponentOk_iff e).1 he⟩

/-! ### One turn of each port -/

theorem issue_producer_writes {w : Word} {s t : State} (ht : issue .producer w s = .next t) :
    t.exp = s.exp ∧ (t.wr = s.wr ∨ t.wr = s.wr + 1#32) ∧ (t.rd = s.rd ∨ (t.rd = s.rd + 1#32 ∧ isFull s = true)) := by
  cases issue_writes ht with
  | nothing hc hexp hrd hwr hstore => exact ⟨hexp, .inl hwr, .inl hrd⟩
  | push d hd hp hc hexp hrd hwr => exact ⟨hexp, .inr hwr, hrd⟩
  | config e hd hp => cases hp
  | pop hd hp => cases hp

theorem issue_consumer_writes {w : Word} {s t : State} (ht : issue .consumer w s = .next t) :
    t.exp = s.exp ∧ t.wr = s.wr ∧ t.store = s.store ∧ (t.rd = s.rd ∨ (t.rd = s.rd + 1#32 ∧ isEmpty s = false)) := by
  cases issue_writes ht with
  | nothing hc hexp hrd hwr hstore => exact ⟨hexp, hwr, hstore, .inl hrd⟩
  | pop hd hp h0 hc hexp hrd hwr hstore => exact ⟨hexp, hwr, hstore, .inr ⟨hrd, h0⟩⟩
  | config e hd hp => cases hp
  | push d hd hp => cases hp

theorem issue_host_writes {w : Word} {s t : State} (ht : issue .host w s = .next t) :
    t.store = s.store ∧ ((t.exp = s.exp ∧ t.rd = s.rd ∧ t.wr = s.wr) ∨ (t.rd = 0#32 ∧ t.wr = 0#32)) := by
  cases issue_writes ht with
  | nothing hc hexp hrd hwr hstore => exact ⟨hstore, .inl ⟨hexp, hrd, hwr⟩⟩
  | config e hd hp he hc hexp hrd hwr hstore => exact ⟨hstore, .inr ⟨hrd, hwr⟩⟩
  | push d hd hp => cases hp
  | pop hd hp => cases hp

/-- A turn of port `p` is a command of `p` between two changes of the agents, or only the first of these. -/
theorem step_port_cases {s t : State} {p : Port} {us : List Turn} (hs : s.turns = .port p :: us)
    (ht : step s = .next t) :
    t = settle p (withTurns us s) ∨
    ∃ w u r, issue p w (settle p (withTurns us s)) = .next u ∧ t = deliver p r u := by
  obtain ⟨t', ht', hcases⟩ := step_cases s
  rw [ht] at ht'
  cases ht'
  rcases hcases with ⟨h, -⟩ | ⟨us', h, -⟩ | ⟨p', us', h, -, rfl⟩ | ⟨p', us', w, u, r, h, -, hu, -, rfl⟩ <;>
    rw [hs] at h <;> cases h
  · exact .inl rfl
  · exact .inr ⟨w, u, r, hu, rfl⟩

theorem step_reset {s : State} {us : List Turn} (hs : s.turns = .reset :: us) :
    step s = .next (resetBlock (withTurns us s)) := by
  rw [step, takeTurn, hs]

theorem step_itemBits {s t : State} (ht : step s = .next t) : t.itemBits = s.itemBits := by
  obtain ⟨t', ht', hcases⟩ := step_cases s
  rw [ht] at ht'
  cases ht'
  rcases hcases with ⟨-, rfl⟩ | ⟨us, -, rfl⟩ | ⟨p, us, -, -, rfl⟩ | ⟨p, us, w, u, r, -, -, hu, -, rfl⟩
  · rfl
  · rfl
  · rw [settle_itemBits, withTurns_itemBits]
  · obtain ⟨hwidth, -⟩ := issue_frame hu
    rw [deliver_itemBits, hwidth, settle_itemBits, withTurns_itemBits]

theorem isFull_turn (p : Port) (us : List Turn) (s : State) : isFull (settle p (withTurns us s)) = isFull s := by
  cases p <;> rfl

theorem isEmpty_turn (p : Port) (us : List Turn) (s : State) : isEmpty (settle p (withTurns us s)) = isEmpty s := by
  cases p <;> rfl

/-- Settles O29: a turn writes what a command of its port may write. -/
theorem onlyTheOwnersWrite : Obligations.OnlyTheOwnersWrite := by
  intro s t ht
  refine ⟨step_itemBits ht, fun us hs => ?_, fun us hs => ?_, fun us hs => ?_, fun us hs => ?_⟩
  · rcases step_port_cases hs ht with rfl | ⟨w, u, r, hu, rfl⟩
    · simp
    · simpa [isFull_turn] using issue_producer_writes hu
  · rcases step_port_cases hs ht with rfl | ⟨w, u, r, hu, rfl⟩
    · simp
    · simpa [isEmpty_turn] using issue_consumer_writes hu
  · rcases step_port_cases hs ht with rfl | ⟨w, u, r, hu, rfl⟩
    · simp
    · simpa using issue_host_writes hu
  · rw [step_reset hs] at ht
    cases ht
    exact ⟨rfl, rfl, rfl⟩

end Sys2Proof.Machine
end

section
/-! Dead slots are unobservable (10_state.md R23, R28): a state and the same state with other slots under one view. Every operation
keeps the view, every flag and every item read agrees, so every answer, turn and run does. -/

namespace Sys2Proof.Machine

/-! ### A state with other slots -/

/-- The state with the slots `m` listed and the free contents of era `era`. -/
def withSlots (m : Store) (era : Nat) (s : State) : State := { s with store := m, era := era }

/-- Every item of the window reads the same with the slots `m` and the era `era`. -/
def WindowReads (m : Store) (era : Nat) (s : State) : Prop :=
  ∀ k, k < (occupancy s).toNat → storeRead (slotAt s k) s = storeRead (slotAt s k) (withSlots m era s)

/-- A state of the same view is the state with other slots that read the same in the window. -/
theorem sameView_iff (s u : State) : SameView s u ↔ ∃ m era, u = withSlots m era s ∧ WindowReads m era s := by
  constructor
  · rintro ⟨hrest, hwindow⟩
    refine ⟨u.store, u.era, hrest.symm, fun k hk => ?_⟩
    have hu : withSlots u.store u.era s = u := hrest
    rw [hu, hwindow k hk, ← hu]
    rfl
  · rintro ⟨m, era, rfl, hwindow⟩
    exact ⟨rfl, hwindow⟩

theorem sameView_withSlots {m : Store} {era : Nat} {s : State} (h : WindowReads m era s) : SameView s (withSlots m era s) :=
  (sameView_iff _ _).2 ⟨m, era, rfl, h⟩

/-- An operation that leaves the window alone and does not look at the slots keeps the view. -/
theorem sameView_map {f : State → State} (hslots : ∀ m era s, f (withSlots m era s) = withSlots m era (f s))
    (hwindow : ∀ m era s, WindowReads m era s → WindowReads m era (f s)) {s u : State} (h : SameView s u) :
    SameView (f s) (f u) := by
  obtain ⟨m, era, rfl, hreads⟩ := (sameView_iff s u).1 h
  rw [hslots]
  exact sameView_withSlots (hwindow m era s hreads)

/-! ### What the view shows -/

theorem SameView.itemBits_eq {s u : State} (h : SameView s u) : u.itemBits = s.itemBits := by
  rw [← h.rest]

theorem SameView.port_eq {s u : State} (h : SameView s u) : u.port = s.port := by
  rw [← h.rest]

theorem SameView.turns_eq {s u : State} (h : SameView s u) : u.turns = s.turns := by
  rw [← h.rest]

theorem SameView.resp_eq {s u : State} (h : SameView s u) : u.resp = s.resp := by
  rw [← h.rest]

theorem SameView.occupancy_eq {s u : State} (h : SameView s u) : occupancy u = occupancy s := by
  rw [← h.rest]
  rfl

theorem SameView.capacity_eq {s u : State} (h : SameView s u) : capacity u = capacity s := by
  rw [← h.rest]
  rfl

theorem SameView.isEmpty_eq {s u : State} (h : SameView s u) : isEmpty u = isEmpty s := by
  rw [isEmpty, h.occupancy_eq, isEmpty]

theorem SameView.isFull_eq {s u : State} (h : SameView s u) : isFull u = isFull s := by
  rw [isFull, h.occupancy_eq, h.capacity_eq, isFull]

theorem SameView.hasFree_eq {s u : State} (h : SameView s u) : hasFree u = hasFree s := by
  rw [hasFree, h.occupancy_eq, h.capacity_eq, hasFree]

theorem SameView.presented_eq {s u : State} (h : SameView s u) (p : Port) : presented p u = presented p s := by
  rw [← h.rest]
  cases p <;> rfl

/-- The oldest item held is in the window. -/
theorem SameView.oldestItem_eq {s u : State} (h : SameView s u) (h0 : (occupancy s).toNat ≠ 0) :
    oldestItem u = oldestItem s := by
  have hread := h.window 0 (Nat.pos_of_ne_zero h0)
  rw [slotAt_zero, slotAt_zero] at hread
  exact hread.symm

/-! ### Operations that keep the view -/

section
variable {s u : State}

theorem sameView_respond (st : Status) (vld : Bool) (val : Word) (h : SameView s u) :
    SameView (respond st vld val s) (respond st vld val u) :=
  sameView_map (f := respond st vld val) (fun _ _ _ => rfl) (fun _ _ _ hreads => hreads) h

theorem sameView_withPort (p : Port) (h : SameView s u) : SameView (withPort p s) (withPort p u) :=
  sameView_map (f := withPort p) (fun _ _ _ => rfl) (fun _ _ _ hreads => hreads) h

theorem sameView_withTurns (us : List Turn) (h : SameView s u) : SameView (withTurns us s) (withTurns us u) :=
  sameView_map (f := withTurns us) (fun _ _ _ => rfl) (fun _ _ _ hreads => hreads) h

theorem sameView_settle (p : Port) (h : SameView s u) : SameView (settle p s) (settle p u) := by
  refine sameView_map (f := settle p) (fun m era s => ?_) (fun m era s hreads => ?_) h
  · cases p <;> rfl
  · cases p <;> exact hreads

theorem sameView_deliver (p : Port) (r : Response) (h : SameView s u) : SameView (deliver p r s) (deliver p r u) := by
  refine sameView_map (f := deliver p r) (fun m era s => ?_) (fun m era s hreads => ?_) h
  · cases p <;> rfl
  · cases p <;> exact hreads

/-- With an empty window every slot is dead. -/
theorem windowReads_of_empty (m : Store) (era : Nat) (h0 : (occupancy s).toNat = 0) : WindowReads m era s :=
  fun k hk => absurd hk (by omega)

theorem sameView_configure (e : BitVec 8) (h : SameView s u) : SameView (configure e s) (configure e u) :=
  sameView_map (f := configure e) (fun _ _ _ => rfl) (fun m era _ _ => windowReads_of_empty m era (by simp [occupancy])) h

/-- A reset lists no slot in either state; the eras may go on apart. -/
theorem sameView_resetBlock (h : SameView s u) : SameView (resetBlock s) (resetBlock u) := by
  obtain ⟨m, era, rfl, -⟩ := (sameView_iff s u).1 h
  exact sameView_withSlots (s := resetBlock s) (windowReads_of_empty [] (era + 1) (by simp [occupancy]))

/-- Dropping the oldest item makes the window smaller. -/
theorem sameView_advanceRd (h0 : (occupancy s).toNat ≠ 0) (h : SameView s u) :
    SameView (advanceRd s) (advanceRd u) := by
  obtain ⟨m, era, rfl, hreads⟩ := (sameView_iff s u).1 h
  refine sameView_withSlots (s := advanceRd s) fun k hk => ?_
  rw [occupancy_advanceRd h0] at hk
  rw [slotAt_advanceRd]
  exact hreads (k + 1) (by omega)

theorem sameView_evictIfFull (h : SameView s u) : SameView (evictIfFull s) (evictIfFull u) := by
  unfold evictIfFull
  rw [h.isFull_eq]
  split
  · rename_i hf
    rw [isFull_iff_occupancy] at hf
    have := Nat.two_pow_pos s.exp.toNat
    exact sameView_advanceRd (by omega) h
  · exact h

/-- A write makes the window longer by one item at most, also where the counter wraps onto `rd`. -/
theorem occupancy_put_le (a : BitVec 16) (v : Item) (s : State) :
    (occupancy (advanceWr (storeWrite a v s))).toNat ≤ (occupancy s).toNat + 1 := by
  have hnext : occupancy (advanceWr (storeWrite a v s)) = occupancy s + 1#32 := add_sub_right_comm s.wr 1#32 s.rd
  rw [hnext, BitVec.toNat_add]
  exact Nat.mod_le ..

/-- The slot written reads as the new item in both states, every other slot of the window as before. -/
theorem sameView_put (v : Item) (h : SameView s u) :
    SameView (advanceWr (storeWrite (slotOf s.exp s.wr) v s)) (advanceWr (storeWrite (slotOf u.exp u.wr) v u)) := by
  obtain ⟨m, era, rfl, hreads⟩ := (sameView_iff s u).1 h
  refine ⟨rfl, fun k hk => ?_⟩
  have hle := occupancy_put_le (slotOf s.exp s.wr) v s
  have hput : ∀ x : State, storeRead (slotAt s k) (advanceWr x) = storeRead (slotAt s k) x :=
    fun x => storeRead_congr rfl rfl rfl _
  change storeRead (slotAt s k) (advanceWr (storeWrite (slotOf s.exp s.wr) v s)) =
    storeRead (slotAt s k) (advanceWr (storeWrite (slotOf s.exp s.wr) v (withSlots m era s)))
  rw [hput, hput]
  by_cases hslot : slotAt s k = slotOf s.exp s.wr
  · rw [hslot, storeRead_storeWrite_same, storeRead_storeWrite_same]
    rfl
  · have hne : k ≠ (occupancy s).toNat := fun hk => hslot (hk ▸ slotAt_occupancy s)
    rw [storeRead_storeWrite_other hslot, storeRead_storeWrite_other hslot]
    exact hreads k (by omega)

theorem sameView_appendItem (d : BitVec 16) (h : SameView s u) : SameView (appendItem d s) (appendItem d u) := by
  have hevict := sameView_evictIfFull h
  rw [appendItem_eq, appendItem_eq, hevict.itemBits_eq]
  exact sameView_put _ hevict

end

/-! ### Answers of the same view -/

/-- Both answers are next states, of the same view. -/
def SameAnswer (a b : Answer) : Prop := ∃ s u, a = .next s ∧ b = .next u ∧ SameView s u

theorem sameAnswer_next {s u : State} (h : SameView s u) : SameAnswer (.next s) (.next u) := ⟨s, u, rfl, rfl, h⟩

section
variable {s u : State}

theorem sameAnswer_respond (st : Status) (vld : Bool) (val : Word) (h : SameView s u) :
    SameAnswer (.next (respond st vld val s)) (.next (respond st vld val u)) :=
  sameAnswer_next (sameView_respond st vld val h)

theorem exec_config_sameAnswer (e : BitVec 8) (hp : s.port = .host) (h : SameView s u) :
    SameAnswer (exec (.config e) s) (exec (.config e) u) := by
  have hp' := h.port_eq.trans hp
  cases he : exponentOk e with
  | true =>
    rw [exec_config_accepted hp he, exec_config_accepted hp' he]
    exact sameAnswer_respond _ _ _ (sameView_configure e h)
  | false =>
    rw [exec_config_rejected hp he, exec_config_rejected hp' he]
    exact sameAnswer_respond _ _ _ h

theorem exec_push_sameAnswer (d : BitVec 16) (hp : s.port = .producer) (h : SameView s u) :
    SameAnswer (exec (.push d) s) (exec (.push d) u) := by
  have hp' := h.port_eq.trans hp
  cases hd : itemTooWide s.itemBits d with
  | true =>
    rw [exec_push_tooWide hp hd, exec_push_tooWide hp' (h.itemBits_eq ▸ hd)]
    exact sameAnswer_respond _ _ _ h
  | false =>
    rw [exec_push_fits hp hd, exec_push_fits hp' (h.itemBits_eq ▸ hd)]
    exact sameAnswer_respond _ _ _ (sameView_appendItem d h)

theorem exec_pop_sameAnswer (hp : s.port = .consumer) (h : SameView s u) : SameAnswer (exec .pop s) (exec .pop u) := by
  have hp' := h.port_eq.trans hp
  cases he : isEmpty s with
  | true =>
    rw [exec_pop_empty hp he, exec_pop_empty hp' (h.isEmpty_eq.trans he)]
    exact sameAnswer_respond _ _ _ h
  | false =>
    have h0 := occupancy_ne_zero_of_not_isEmpty he
    rw [exec_pop_item hp he, exec_pop_item hp' (h.isEmpty_eq.trans he), h.oldestItem_eq h0]
    exact sameAnswer_respond _ _ _ (sameView_advanceRd h0 h)

theorem exec_status_sameAnswer {i : Instr} (hi : i = .len ∨ i = .cap ∨ i = .full ∨ i = .free) (h : SameView s u) :
    SameAnswer (exec i s) (exec i u) := by
  rcases hi with rfl | rfl | rfl | rfl <;>
    simp only [exec, execLen, execCap, execFull, execFree, h.occupancy_eq, h.capacity_eq, h.isFull_eq, h.hasFree_eq] <;>
    exact sameAnswer_respond _ _ _ h

theorem exec_sameAnswer (i : Instr) (h : SameView s u) : SameAnswer (exec i s) (exec i u) := by
  cases hm : mayIssue i s.port with
  | false =>
    rw [exec_refused hm, exec_refused (h.port_eq ▸ hm)]
    exact sameAnswer_respond _ _ _ h
  | true =>
    cases i with
    | config e => exact exec_config_sameAnswer e (mayIssue_config.1 hm) h
    | push d => exact exec_push_sameAnswer d (mayIssue_push.1 hm) h
    | pop => exact exec_pop_sameAnswer (mayIssue_pop.1 hm) h
    | len => exact exec_status_sameAnswer (by simp) h
    | cap => exact exec_status_sameAnswer (by simp) h
    | full => exact exec_status_sameAnswer (by simp) h
    | free => exact exec_status_sameAnswer (by simp) h

theorem issue_sameAnswer (p : Port) (w : Word) (h : SameView s u) : SameAnswer (issue p w s) (issue p w u) := by
  have hport := sameView_withPort p h
  cases hd : decode w with
  | error r =>
    rw [issue_error hd, issue_error hd]
    exact sameAnswer_respond _ _ _ hport
  | ok i =>
    rw [issue_ok hd, issue_ok hd]
    exact exec_sameAnswer i hport

/-! ### Turns and runs -/

/-- The response, which both states show, goes to the same agent. -/
theorem handBack_sameAnswer (p : Port) (w : Word) (h : SameView s u) :
    SameAnswer (handBack p (issue p w s)) (handBack p (issue p w u)) := by
  obtain ⟨t, v, ht, hv, hview⟩ := issue_sameAnswer p w h
  obtain ⟨r, hr⟩ := issue_resp ht
  rw [handBack_next ht hr, handBack_next hv (hview.resp_eq.trans hr)]
  exact sameAnswer_next (sameView_deliver p r hview)

theorem step_sameAnswer (h : SameView s u) : SameAnswer (step s) (step u) := by
  cases hs : s.turns with
  | nil =>
    rw [step_of_no_turns hs, step_of_no_turns (h.turns_eq.trans hs)]
    exact sameAnswer_next h
  | cons a us =>
    have hu := h.turns_eq.trans hs
    have hturns := sameView_withTurns us h
    cases a with
    | reset =>
      rw [step_reset hs, step_reset hu]
      exact sameAnswer_next (sameView_resetBlock hturns)
    | port p =>
      have hsettled := sameView_settle p hturns
      have hsame := hsettled.presented_eq p
      cases hp : presented p (settle p (withTurns us s)) with
      | none =>
        rw [step_of_nothing_presented hs hp, step_of_nothing_presented hu (hsame.trans hp)]
        exact sameAnswer_next hsettled
      | some w =>
        rw [step_of_presented hs hp, step_of_presented hu (hsame.trans hp)]
        exact handBack_sameAnswer p w hsettled

end

/-- A run of `n + 1` steps is a step and a run of `n`. -/
theorem core_run_succ {s t : State} (h : step s = .next t) (n : Nat) :
    Sys2Proof.core.run (n + 1) s = Sys2Proof.core.run n t := by
  have hcore : Sys2Proof.core.step s = .next t := h
  simp only [Host.Core.run, hcore]

/-- Settles O40, by induction on the number of steps: one step keeps the view. -/
theorem deadSlotsUnobservable : Obligations.DeadSlotsUnobservable := by
  intro n
  induction n with
  | zero => exact fun s u h => ⟨s, u, rfl, rfl, h⟩
  | succ n ih =>
    intro s u h
    obtain ⟨t, v, ht, hv, hview⟩ := step_sameAnswer h
    obtain ⟨s', u', hs', hu', hview'⟩ := ih t v hview
    exact ⟨s', u', (core_run_succ ht n).trans hs', (core_run_succ hv n).trans hu', hview'⟩

end Sys2Proof.Machine
end

section
/-! The frame of the status commands (43_status.md, 20_memory.md R46). -/

namespace Sys2Proof.Machine

/-- A status command reads no response, so it answers after one what it answers before it. -/
theorem exec_status_respond {i : Instr} (hi : i = .len ∨ i = .cap ∨ i = .full ∨ i = .free) (st : Status) (vld : Bool)
    (val : Word) (s : State) : exec i (respond st vld val s) = exec i s := by
  rcases hi with rfl | rfl | rfl | rfl <;> rfl

/-- Settles O35: a status command only responds. -/
theorem statusQueriesFrame : Obligations.StatusQueriesFrame := by
  intro i s hi
  obtain ⟨v, hv⟩ := exec_status hi s
  exact ⟨_, hv, rfl, (exec_status_respond hi .ok true v s).trans hv, fun _ => storeRead_congr rfl rfl rfl _⟩

end Sys2Proof.Machine
end

section
/-! Every schedule of commands is a run of the step (60_exceptions.md R131, 20_memory.md R54): a command neither reads nor writes what
stands outside the block, a loaded schedule is its first command loaded before the others, and a turn hands the response to the port
served. -/

namespace Sys2Proof.Machine

/-! ### The block of one state with the outside of another -/

/-- The block of `s` with the agents and the schedule of `o`. -/
def withOutside (o s : State) : State :=
  { s with producer := o.producer, consumer := o.consumer, host := o.host, turns := o.turns }

theorem appendItem_withOutside (d : BitVec 16) (o s : State) :
    appendItem d (withOutside o s) = withOutside o (appendItem d s) := by
  have hfull : isFull (withOutside o s) = isFull s := rfl
  simp only [appendItem, evictIfFull, hfull]
  split <;> rfl

/-- A command answers the same whatever stands outside the block, and leaves it alone. -/
theorem exec_withOutside (i : Instr) (o s : State) :
    ∃ t, exec i s = .next t ∧ exec i (withOutside o s) = .next (withOutside o t) := by
  cases hm : mayIssue i s.port with
  | false => exact ⟨_, exec_refused hm, exec_refused (s := withOutside o s) hm⟩
  | true =>
    cases i with
    | config e =>
      have hp := mayIssue_config.1 hm
      cases he : exponentOk e with
      | true => exact ⟨_, exec_config_accepted hp he, exec_config_accepted (s := withOutside o s) hp he⟩
      | false => exact ⟨_, exec_config_rejected hp he, exec_config_rejected (s := withOutside o s) hp he⟩
    | push d =>
      have hp := mayIssue_push.1 hm
      cases hd : itemTooWide s.itemBits d with
      | true => exact ⟨_, exec_push_tooWide hp hd, exec_push_tooWide (s := withOutside o s) hp hd⟩
      | false =>
        refine ⟨_, exec_push_fits hp hd, ?_⟩
        rw [exec_push_fits (s := withOutside o s) hp hd, appendItem_withOutside]
        rfl
    | pop =>
      have hp := mayIssue_pop.1 hm
      cases he : isEmpty s with
      | true => exact ⟨_, exec_pop_empty hp he, exec_pop_empty (s := withOutside o s) hp he⟩
      | false => exact ⟨_, exec_pop_item hp he, exec_pop_item (s := withOutside o s) hp he⟩
    | len => exact ⟨_, rfl, rfl⟩
    | cap => exact ⟨_, rfl, rfl⟩
    | full => exact ⟨_, rfl, rfl⟩
    | free => exact ⟨_, rfl, rfl⟩

/-- The same for any word on any port. -/
theorem issue_withOutside {p : Port} {w : Word} {s t : State} (ht : issue p w s = .next t) (o : State) :
    issue p w (withOutside o s) = .next (withOutside o t) := by
  cases hd : decode w with
  | error r =>
    rw [issue_error hd] at ht ⊢
    cases ht
    rfl
  | ok i =>
    obtain ⟨t', ht', hout⟩ := exec_withOutside i o (withPort p s)
    rw [issue_ok hd, ht'] at ht
    cases ht
    exact (issue_ok hd p _).trans hout

/-! ### Loading one command more, and taking one response more -/

/-- A schedule is loaded by loading its first command before the others. -/
theorem loadSchedule_cons (p : Port) (w : Word) (cs : List (Port × Word)) (s : State) :
    loadSchedule ((p, w) :: cs) s = loadCommand p w (loadSchedule cs s) := by
  cases p <;> rfl

theorem loadCommand_withOutside (p : Port) (w : Word) (o s : State) :
    withOutside (loadCommand p w o) s = loadCommand p w (withOutside o s) := by
  cases p <;> rfl

theorem giveWord_withOutside (p : Port) (w : Word) (o s : State) :
    giveWord p w (withOutside o s) = withOutside (giveWord p w o) s := by
  cases p <;> rfl

/-- The state with the response `r` as one more result of the agent of port `p`. -/
def withReply (p : Port) (r : Response) (s : State) : State :=
  match p with
  | .producer => { s with producer := ⟨s.producer.todo, s.producer.results ++ [.reply r]⟩ }
  | .consumer => { s with consumer := ⟨s.consumer.todo, s.consumer.results ++ [.reply r]⟩ }
  | .host => { s with host := ⟨s.host.todo, s.host.results ++ [.reply r]⟩ }

/-- Among raw words there is no burst to retire. -/
theorem settleProducer_words (ws : List Word) (rs : List AgentResult) :
    settleProducer (ws.map .word) rs = ⟨ws.map .word, rs⟩ := by
  cases ws <;> rfl

theorem settleConsumer_words (ws : List Word) (rs : List AgentResult) :
    settleConsumer (ws.map .word) rs = ⟨ws.map .word, rs⟩ := by
  cases ws <;> rfl

/-- The agent that takes the response to its raw word has the rest of its words left and one reply more. -/
theorem deliver_giveWord_loadSchedule (p : Port) (w : Word) (r : Response) (cs : List (Port × Word)) (o s : State) :
    deliver p r (withOutside (giveWord p w (loadSchedule cs o)) s) =
      withOutside (loadSchedule cs (withReply p r o)) s := by
  cases p with
  | producer => simp only [deliver, giveWord, withOutside, loadSchedule, producerTake, settleProducer_words, withReply]
  | consumer => simp only [deliver, giveWord, withOutside, loadSchedule, consumerTake, settleConsumer_words, withReply]
  | host => rfl

/-- The first step of a loaded schedule takes its first command and hands the response to the port that issued it. -/
theorem step_loadSchedule_cons {p : Port} {w : Word} {s u : State} {r : Response} (hu : issue p w s = .next u)
    (hr : u.resp = some (p, r)) (cs : List (Port × Word)) (o : State) :
    step (withOutside (loadSchedule ((p, w) :: cs) o) s) = .next (withOutside (loadSchedule cs (withReply p r o)) u) := by
  have hanswer := issue_withOutside hu (giveWord p w (loadSchedule cs o))
  rw [loadSchedule_cons, loadCommand_withOutside, step_loadCommand, giveWord_withOutside, handBack_next hanswer hr,
    deliver_giveWord_loadSchedule]

/-! ### The run of a whole schedule -/

theorem runCommands_length {cs : List (Port × Word)} {s t : State} {rs : List Response}
    (hrun : runCommands cs s = some (rs, t)) : rs.length = cs.length := by
  induction cs generalizing s rs with
  | nil =>
    cases hrun
    rfl
  | cons c cs ih =>
    obtain ⟨u, r, rs', -, -, hrest, rfl⟩ := runCommands_cons_inv hrun
    rw [List.length_cons, List.length_cons, ih hrest]

/-- The state whose agents have no work left and have got the responses `rs` to the schedule `cs`, each its own. -/
def answered (cs : List (Port × Word)) (rs : List Response) (s : State) : State :=
  { s with
    producer := ⟨[], s.producer.results ++ repliesOf .producer cs rs⟩
    consumer := ⟨[], s.consumer.results ++ repliesOf .consumer cs rs⟩
    host := ⟨[], s.host.results ++ repliesOf .host cs rs⟩ }

theorem answered_nil (s : State) : answered [] [] s = loadSchedule [] s := by
  simp [answered, loadSchedule, repliesOf, wordsOf]

theorem repliesOf_cons (q p : Port) (w : Word) (r : Response) (cs : List (Port × Word)) (rs : List Response) :
    repliesOf q ((p, w) :: cs) (r :: rs) = (if p = q then [.reply r] else []) ++ repliesOf q cs rs := by
  by_cases h : p = q <;> simp [repliesOf, h]

/-- Only the port that issued the first command gets its response. -/
theorem answered_cons (p : Port) (w : Word) (r : Response) (cs : List (Port × Word)) (rs : List Response) (s : State) :
    answered ((p, w) :: cs) (r :: rs) s = answered cs rs (withReply p r s) := by
  cases p <;> simp [answered, withReply, repliesOf_cons]

/-- A loaded schedule runs to its end, the outside going from `loadSchedule cs o` to `answered cs rs o`. -/
theorem run_loadSchedule {cs : List (Port × Word)} {s t : State} {rs : List Response}
    (hrun : runCommands cs s = some (rs, t)) (o : State) :
    Sys2Proof.core.run cs.length (withOutside (loadSchedule cs o) s) = .next (withOutside (answered cs rs o) t) := by
  induction cs generalizing s rs o with
  | nil =>
    cases hrun
    rw [answered_nil]
    rfl
  | cons c cs ih =>
    obtain ⟨p, w⟩ := c
    obtain ⟨u, r, rs', hu, hr, hrest, rfl⟩ := runCommands_cons_inv hrun
    rw [List.length_cons, core_run_succ (step_loadSchedule_cons hu hr cs o), ih hrest, answered_cons]

/-- Settles O42: `run_loadSchedule`, the outside being the state's own. -/
theorem stepsRealiseEverySchedule : Obligations.StepsRealiseEverySchedule := by
  intro cs s
  obtain ⟨rs, t, hrun⟩ := runCommands_total cs s
  exact ⟨rs, t, hrun, runCommands_length hrun, run_loadSchedule hrun s⟩

end Sys2Proof.Machine
end

section
/-! The decoder and the encoder: the four word checks and then the command that the fields name, every command the decoding of exactly
one word, and the match and mask table in terms of the fields (30_encoding.md R60 to R67). -/

namespace Sys2Proof

/-! ### The decoder as its checks and the command named by the fields -/

/-- The command that a word's opcode and operand fields name, whatever its other fields (30_encoding.md R62). -/
def namedCommand (w : Word) : Instr :=
  if opField w = 0x1#4 then .config (argField w)
  else if opField w = 0x2#4 then .push (dataField w)
  else if opField w = 0x3#4 then .pop
  else if opField w = 0x4#4 then .len
  else if opField w = 0x5#4 then .cap
  else if opField w = 0x6#4 then .full
  else .free

/-- A word that passes the four word checks of 30_encoding.md R65. -/
structure PassesWordChecks (w : Word) : Prop where
  opcode : ¬ (opField w = 0x0#4 ∨ 0x8#4 ≤ opField w)
  rsv : rsvField w = 0x0#4
  arg : opField w ≠ 0x1#4 → argField w = 0x0#8
  data : opField w ≠ 0x2#4 → dataField w = 0x0#16

theorem decode_of_passes {w : Word} (h : PassesWordChecks w) : decode w = .ok (namedCommand w) := by
  obtain ⟨hop, hrsv, harg, hdata⟩ := h
  rw [decode, if_neg hop, if_neg (not_not.2 hrsv), if_neg fun hc => hc.2 (harg hc.1), if_neg fun hc => hc.2 (hdata hc.1)]
  simp only [namedCommand, apply_ite (Except.ok (ε := Reject))]

theorem passes_of_decode {w : Word} {i : Instr} (h : decode w = .ok i) : PassesWordChecks w := by
  unfold decode at h
  split_ifs at h with hop hrsv harg hdata <;> cases h
  all_goals exact ⟨hop, not_not.1 hrsv, fun h1 => by_contra fun h2 => harg ⟨h1, h2⟩, fun h1 => by_contra fun h2 => hdata ⟨h1, h2⟩⟩

/-- The words that are commands are those that pass the checks. -/
theorem decode_ok_iff (w : Word) : (∃ i, decode w = .ok i) ↔ PassesWordChecks w :=
  ⟨fun ⟨_, h⟩ => passes_of_decode h, fun h => ⟨_, decode_of_passes h⟩⟩

/-- The command decoded is the one that the fields name. -/
theorem eq_namedCommand_of_decode {w : Word} {i : Instr} (h : decode w = .ok i) : i = namedCommand w := by
  have := h.symm.trans (decode_of_passes (passes_of_decode h))
  cases this
  rfl

/-! ### The two round trips -/

theorem encodingFields (i : Instr) : Laws.EncodingFields.Statement i := by
  cases i with
  | config e => exact Laws.EncodingFields.config e
  | push d => exact Laws.EncodingFields.push d
  | pop => exact Laws.EncodingFields.pop
  | len => exact Laws.EncodingFields.len
  | cap => exact Laws.EncodingFields.cap
  | full => exact Laws.EncodingFields.full
  | free => exact Laws.EncodingFields.free

theorem opField_encode (i : Instr) : opField (encode i) = opcodeOf i := (encodingFields i).1

theorem opcodeOf_not_reserved (i : Instr) : ¬ (opcodeOf i = 0x0#4 ∨ 0x8#4 ≤ opcodeOf i) := by
  cases i <;> simp [opcodeOf]

/-- The opcode of a command is not reserved, so the checks of a word with it are those of its three other fields. -/
theorem passes_iff_of_opcode {w : Word} {i : Instr} (h : opField w = opcodeOf i) :
    PassesWordChecks w ↔ rsvField w = 0x0#4 ∧ (opcodeOf i ≠ 0x1#4 → argField w = 0x0#8) ∧
      (opcodeOf i ≠ 0x2#4 → dataField w = 0x0#16) := by
  rw [← h]
  exact ⟨fun ⟨_, hrsv, harg, hdata⟩ => ⟨hrsv, harg, hdata⟩,
    fun ⟨hrsv, harg, hdata⟩ => ⟨h ▸ opcodeOf_not_reserved i, hrsv, harg, hdata⟩⟩

theorem encode_passes (i : Instr) : PassesWordChecks (encode i) :=
  (passes_iff_of_opcode (opField_encode i)).2 (encodingFields i).2

theorem namedCommand_encode (i : Instr) : namedCommand (encode i) = i := by
  rw [namedCommand, opField_encode]
  cases i with
  | config e => exact congrArg Instr.config (argField_packWord _ _ _)
  | push d => exact congrArg Instr.push (dataField_packWord _ _ _)
  | pop | len | cap | full | free => rfl

theorem decode_encode (i : Instr) : decode (encode i) = .ok i := by
  rw [decode_of_passes (encode_passes i), namedCommand_encode]

/-- Settles O18: the word of a command passes the checks, and its fields name the command. -/
theorem decodeEncodeRoundTrip : Obligations.DecodeEncodeRoundTrip := decode_encode

/-- The word of a command is put together from the fields that the command names. -/
theorem encode_of_decode {w : Word} {i : Instr} (h : decode w = .ok i) : encode i = w := by
  have hop := Machine.opField_of_decode h
  have hi := eq_namedCommand_of_decode h
  obtain ⟨hrsv, harg, hdata⟩ := (passes_iff_of_opcode hop).1 (passes_of_decode h)
  rw [namedCommand, hop] at hi
  rw [← Machine.packWord_fields hrsv, hop]
  cases i with
  | config e =>
    obtain rfl : e = argField w := Instr.config.inj hi
    rw [hdata (by simp [opcodeOf]), encode]
  | push d =>
    obtain rfl : d = dataField w := Instr.push.inj hi
    rw [harg (by simp [opcodeOf]), encode]
  | pop | len | cap | full | free => rw [harg (by decide), hdata (by decide), encode]

/-- Settles O19: the checks leave no field of the word open but the command's own. -/
theorem encodeDecodeRoundTrip : Obligations.EncodeDecodeRoundTrip := fun _ _ => encode_of_decode

/-- Settles O20: each word is evaluated by the decoder. -/
theorem writtenOutWordsDecode : Obligations.WrittenOutWordsDecode :=
  ⟨rfl, rfl, rfl, rfl, rfl, rfl, rfl, rfl, rfl⟩

end Sys2Proof
end

section
/-! The match and mask table (30_encoding.md R63): the row of each command, and that a word selects it exactly when it is a command of
that opcode. -/

namespace Sys2Proof

/-! ### Words by their fields -/

/-- A word is its four fields (30_encoding.md R60). -/
theorem word_eq_fields (w : Word) : dataField w ++ (argField w ++ (rsvField w ++ opField w)) = w := by
  rw [dataField, argField, rsvField, opField]
  rw [BitVec.extractLsb'_append_extractLsb'_eq_extractLsb' (start₁ := 0) (len₁ := 4) rfl,
    BitVec.extractLsb'_append_extractLsb'_eq_extractLsb' (start₁ := 0) (len₁ := 8) rfl,
    BitVec.extractLsb'_append_extractLsb'_eq_extractLsb' (start₁ := 0) (len₁ := 16) rfl]
  exact BitVec.extractLsb'_eq_self

theorem word_ext_iff (w v : Word) :
    w = v ↔ opField w = opField v ∧ rsvField w = rsvField v ∧ argField w = argField v ∧ dataField w = dataField v := by
  refine ⟨fun h => h ▸ ⟨rfl, rfl, rfl, rfl⟩, fun ⟨hop, hrsv, harg, hdata⟩ => ?_⟩
  rw [← word_eq_fields w, hop, hrsv, harg, hdata, word_eq_fields]

/-- A masked comparison is one of each field. -/
theorem and_eq_iff_fields (w m b : Word) :
    w &&& m = b ↔ opField w &&& opField m = opField b ∧ rsvField w &&& rsvField m = rsvField b ∧
      argField w &&& argField m = argField b ∧ dataField w &&& dataField m = dataField b := by
  simp only [word_ext_iff, opField, rsvField, argField, dataField, BitVec.extractLsb'_and]

/-! ### The row of a command -/

/-- The bits of a command's word that are not its operand. -/
def fixedBits : Instr → Word
  | .config _ => 0xFFFF00FF#32
  | .push _ => 0x0000FFFF#32
  | .pop | .len | .cap | .full | .free => 0xFFFFFFFF#32

/-- The row of a command in the table of 30_encoding.md R63. -/
def rowOf (i : Instr) : OpcodeRow := ⟨mnemonicOf i, (opcodeOf i).setWidth 32, fixedBits i⟩

theorem opcodeRows_eq_map_rowOf :
    opcodeRows = [Instr.config 0, .push 0, .pop, .len, .cap, .full, .free].map rowOf := rfl

theorem rowOf_mem (i : Instr) : rowOf i ∈ opcodeRows := by
  rw [opcodeRows_eq_map_rowOf]
  cases i <;> simp [rowOf, mnemonicOf, opcodeOf, fixedBits]

theorem exists_rowOf_of_mem {r : OpcodeRow} (h : r ∈ opcodeRows) : ∃ i, rowOf i = r := by
  rw [opcodeRows_eq_map_rowOf, List.mem_map] at h
  obtain ⟨i, -, hi⟩ := h
  exact ⟨i, hi⟩

/-- A word selects the row of a command exactly when it is a command of that opcode. -/
theorem selects_rowOf_iff (w : Word) (i : Instr) :
    w &&& (rowOf i).mask = (rowOf i).matchBits ↔ opField w = opcodeOf i ∧ PassesWordChecks w := by
  have h4 : ∀ x : BitVec 4, x &&& 0xF#4 = x := fun _ => BitVec.and_allOnes
  have h8 : ∀ x : BitVec 8, x &&& 0xFF#8 = x := fun _ => BitVec.and_allOnes
  have h16 : ∀ x : BitVec 16, x &&& 0xFFFF#16 = x := fun _ => BitVec.and_allOnes
  rw [and_eq_iff_fields, and_congr_right fun hop => passes_iff_of_opcode hop]
  cases i <;> simp [rowOf, fixedBits, opcodeOf, opField, rsvField, argField, dataField, h4, h8, h16]

theorem selects_rowOf_of_decode {w : Word} {i : Instr} (h : decode w = .ok i) :
    w &&& (rowOf i).mask = (rowOf i).matchBits :=
  (selects_rowOf_iff w i).2 ⟨Machine.opField_of_decode h, passes_of_decode h⟩

theorem row_eq_of_matchBits_eq :
    ∀ r ∈ opcodeRows, ∀ q ∈ opcodeRows, r.matchBits = q.matchBits → r = q := by decide

/-- DATA[15:8] is the top byte of the word. -/
theorem dataField_high (w : Word) : (dataField w).extractLsb' 8 8 = w.extractLsb' 24 8 := by
  ext k hk
  have hlt : 8 + k < 16 := by omega
  simp [dataField, hlt, ← Nat.add_assoc]

namespace Machine

/-- Settles O8: a row selects the commands of its opcode, so two rows never select one word; the width check comes after it. -/
theorem matchMaskTableSelectsCommand : Obligations.MatchMaskTableSelectsCommand := by
  refine ⟨rfl, fun w r q hr hq hwr hwq => ?_, fun w => ⟨fun ⟨i, hd⟩ => ?_, fun ⟨r, hr, hw⟩ => ?_⟩, fun w i hd => ?_,
    fun w s hw hs hwide => ?_⟩
  · obtain ⟨i, rfl⟩ := exists_rowOf_of_mem hr
    obtain ⟨j, rfl⟩ := exists_rowOf_of_mem hq
    rw [selects_rowOf_iff] at hwr hwq
    exact row_eq_of_matchBits_eq _ hr _ hq (congrArg (BitVec.setWidth 32) (hwr.1.symm.trans hwq.1))
  · exact ⟨rowOf i, rowOf_mem i, selects_rowOf_of_decode hd⟩
  · obtain ⟨i, rfl⟩ := exists_rowOf_of_mem hr
    exact (decode_ok_iff w).2 ((selects_rowOf_iff w i).1 hw).2
  · exact ⟨rowOf i, rowOf_mem i, selects_rowOf_of_decode hd, rfl⟩
  · obtain ⟨hop, hpass⟩ := (selects_rowOf_iff w (.push 0)).1 hw
    have hd : decode w = .ok (.push (dataField w)) := by
      rw [decode_of_passes hpass, namedCommand, hop]
      rfl
    have htoo : itemTooWide s.itemBits (dataField w) = true := by
      rw [hs, itemTooWide, dataField_high]
      exact bne_iff_ne.2 hwide
    exact (issue_ok hd .producer s).trans (exec_push_tooWide (s := withPort .producer s) rfl htoo)

end Machine

end Sys2Proof
end

section
/-! The checks before a command is executed, the port table, and what a command then answers (30_encoding.md R62, R65, R66,
60_exceptions.md R130, R132). -/

namespace Sys2Proof.Machine

/-- Settles O10: a word that passes the checks is a command, any other is answered by `issue_error`. -/
theorem reservedEncodingsAnswerIllegal : Obligations.ReservedEncodingsAnswerIllegal := by
  refine ⟨fun w => ?_, fun p w s h => ?_, fun ⟨i, h⟩ => by cases h⟩
  · refine (decode_ok_iff w).trans ⟨fun ⟨hop, hrsv, harg, hdata⟩ => ?_, fun h => ?_⟩
    · rintro (h | h | h | ⟨h, h'⟩ | ⟨h, h'⟩)
      · exact hop (.inl h)
      · exact hop (.inr h)
      · exact h hrsv
      · exact h' (harg h)
      · exact h' (hdata h)
    · simp only [not_or, not_and, not_not] at h
      obtain ⟨hop0, hop8, hrsv, harg, hdata⟩ := h
      exact ⟨not_or.2 ⟨hop0, hop8⟩, hrsv, harg, hdata⟩
  · cases hd : decode w with
    | error r => exact issue_error hd p s
    | ok i => exact absurd ⟨i, hd⟩ h

/-! ### The rule's pseudocode -/

/-- The port check of 30_encoding.md R65 in terms of the opcode. -/
theorem mayIssue_namedCommand (w : Word) (p : Port) :
    mayIssue (namedCommand w) p = false ↔
      (opField w = 0x1#4 ∧ p ≠ .host) ∨ (opField w = 0x2#4 ∧ p ≠ .producer) ∨ (opField w = 0x3#4 ∧ p ≠ .consumer) := by
  unfold namedCommand
  split_ifs <;> cases p <;> simp_all [mayIssue]

/-- The meaning of the named command is the rule's `case OP of`. -/
theorem exec_namedCommand (w : Word) (s : State) :
    exec (namedCommand w) s =
      if opField w = 0x1#4 then exec (.config (argField w)) s
      else if opField w = 0x2#4 then exec (.push (dataField w)) s
      else if opField w = 0x3#4 then exec .pop s
      else if opField w = 0x4#4 then exec .len s
      else if opField w = 0x5#4 then exec .cap s
      else if opField w = 0x6#4 then exec .full s
      else exec .free s := by
  simp only [namedCommand, apply_ite (exec · s)]

theorem itemTooWide_iff (width : ItemWidth) (d : BitVec 16) :
    itemTooWide width d = true ↔ width = .w8 ∧ d.extractLsb' 8 8 ≠ 0x0#8 := by
  cases width <;> simp [itemTooWide]

/-- `issue` as the checks in the rule's order, then the meaning of the named command. -/
theorem issue_eq_checks (p : Port) (w : Word) (s : State) :
    issue p w s =
      if opField w = 0x0#4 ∨ 0x8#4 ≤ opField w then raise .illegalCommand (withPort p s)
      else if rsvField w ≠ 0x0#4 then raise .illegalCommand (withPort p s)
      else if opField w ≠ 0x1#4 ∧ argField w ≠ 0x0#8 then raise .illegalCommand (withPort p s)
      else if opField w ≠ 0x2#4 ∧ dataField w ≠ 0x0#16 then raise .illegalCommand (withPort p s)
      else if (opField w = 0x1#4 ∧ p ≠ .host) ∨ (opField w = 0x2#4 ∧ p ≠ .producer) ∨ (opField w = 0x3#4 ∧ p ≠ .consumer) then
        raise .illegalCommand (withPort p s)
      else if opField w = 0x2#4 ∧ s.itemBits = .w8 ∧ (dataField w).extractLsb' 8 8 ≠ 0x0#8 then
        raise .illegalCommand (withPort p s)
      else exec (namedCommand w) (withPort p s) := by
  have hillegal := reservedEncodingsAnswerIllegal.2.1 p w s
  rw [decode_ok_iff] at hillegal
  split_ifs with hop hrsv harg hdata hport hwide
  · exact hillegal fun h => h.opcode hop
  · exact hillegal fun h => hrsv h.rsv
  · exact hillegal fun h => harg.2 (h.arg harg.1)
  · exact hillegal fun h => hdata.2 (h.data hdata.1)
  all_goals
    have hd : decode w = .ok (namedCommand w) := decode_of_passes
      ⟨hop, not_not.1 hrsv, fun h1 => by_contra fun h2 => harg ⟨h1, h2⟩, fun h1 => by_contra fun h2 => hdata ⟨h1, h2⟩⟩
    rw [issue_ok hd]
  · exact exec_refused (s := withPort p s) ((mayIssue_namedCommand w p).2 hport)
  · obtain ⟨h2, hwide⟩ := hwide
    have hpush : namedCommand w = .push (dataField w) := by rw [namedCommand, h2]; rfl
    have hp : p = .producer := by simpa [h2] using hport
    rw [hpush]
    exact exec_push_tooWide (s := withPort p s) hp ((itemTooWide_iff _ _).2 hwide)

/-- Settles O9: the four word checks are the decoder's, the port and width checks the meaning's. -/
theorem commandChecksInOrder : Obligations.CommandChecksInOrder := by
  intro p w s
  have h := issue_eq_checks p w s
  rw [exec_namedCommand] at h
  exact h

/-! ### The port table -/

/-- A well-formed command on a port that may issue it fails at most CONFIG's exponent check. -/
theorem exec_wellFormed_status {i : Instr} {s : State} (hm : mayIssue i s.port = true)
    (hi : i.wellFormed s.itemBits = true) :
    ∃ t r, exec i s = .next t ∧ t.resp = some (s.port, r) ∧
      (r.st = .ok ∨ r.st = .invalidCapacity ∧ ∃ e, i = .config e ∧ exponentOk e = false) := by
  cases i with
  | config e =>
    have hp := mayIssue_config.1 hm
    cases he : exponentOk e with
    | true => exact ⟨_, _, exec_config_accepted hp he, rfl, .inl rfl⟩
    | false => exact ⟨_, _, exec_config_rejected hp he, rfl, .inr ⟨rfl, e, rfl, he⟩⟩
  | push d =>
    have hfits : itemTooWide s.itemBits d = false := by
      rw [itemTooWide_eq, decide_eq_false_iff_not, not_le]
      exact of_decide_eq_true hi
    exact ⟨_, _, exec_push_fits (mayIssue_push.1 hm) hfits, by rw [respond_resp, appendItem_port], .inl rfl⟩
  | pop =>
    have hp := mayIssue_pop.1 hm
    cases he : isEmpty s with
    | true => exact ⟨_, _, exec_pop_empty hp he, rfl, .inl rfl⟩
    | false => exact ⟨_, _, exec_pop_item hp he, rfl, .inl rfl⟩
  | len | cap | full | free => exact ⟨_, _, rfl, rfl, .inl rfl⟩

/-- Settles O11: the opcodes are the words' fields, the refusals are the port check's. -/
theorem portTableEnforced : Obligations.PortTableEnforced := by
  refine ⟨fun e => opField_encode _, fun d => opField_encode _, rfl, fun i s h => exec_refused ?_, fun i s hi h => ?_⟩
  · rw [← Bool.not_eq_true]
    rcases h with ⟨h, e, rfl⟩ | ⟨h, d, rfl⟩ | ⟨h, rfl⟩
    · rwa [mayIssue_config]
    · rwa [mayIssue_push]
    · rwa [mayIssue_pop]
  · have hm : mayIssue i s.port = true := by
      rcases h with ⟨h, e, rfl⟩ | ⟨h, d, rfl⟩ | ⟨h, rfl⟩ | rfl | rfl | rfl | rfl
      · exact mayIssue_config.2 h
      · exact mayIssue_push.2 h
      · exact mayIssue_pop.2 h
      all_goals rfl
    obtain ⟨t, r, ht, hr, hst⟩ := exec_wellFormed_status hm hi
    exact ⟨t, r, ht, hr, fun hill => by simp [hill] at hst⟩

/-! ### Assembled words -/

/-- A word put together from its fields, as a number (30_encoding.md R60). -/
theorem packWord_toNat (d : BitVec 16) (a : BitVec 8) (o : BitVec 4) :
    (packWord d a o).toNat = d.toNat * 65536 + a.toNat * 256 + o.toNat := by
  have ha := a.isLt
  have ho := o.isLt
  have hlow : (0x0#4 ++ o).toNat = o.toNat := (BitVec.toNat_append ..).trans (by simp)
  have hmid : (a ++ (0x0#4 ++ o)).toNat = a.toNat * 256 + o.toNat := by
    rw [BitVec.toNat_append, hlow, ← Nat.shiftLeft_add_eq_or_of_lt (by omega), Nat.shiftLeft_eq]
  rw [packWord, BitVec.toNat_append, hmid, ← Nat.shiftLeft_add_eq_or_of_lt (by omega), Nat.shiftLeft_eq]
  omega

/-- The assembler's word, an operand above an opcode, as a number. -/
theorem shiftedOperand_toNat {v k o : Nat} (hv : v * 2 ^ k < 2 ^ 32) (ho : o < 2 ^ k) (ho' : o < 2 ^ 32) :
    (BitVec.ofNat 32 v <<< k ||| BitVec.ofNat 32 o).toNat = v * 2 ^ k + o := by
  have hle : v ≤ v * 2 ^ k := Nat.le_mul_of_pos_right v (Nat.two_pow_pos k)
  rw [BitVec.toNat_or, BitVec.toNat_shiftLeft, BitVec.toNat_ofNat, BitVec.toNat_ofNat, Nat.mod_eq_of_lt ho',
    Nat.mod_eq_of_lt (hle.trans_lt hv), Nat.shiftLeft_eq, Nat.mod_eq_of_lt hv, ← Nat.shiftLeft_eq,
    Nat.shiftLeft_add_eq_or_of_lt ho]

theorem assemble_config {e : Nat} (he : e ≤ 255) (width : ItemWidth) :
    assemble width (.config e) = some (encode (.config (BitVec.ofNat 8 e))) := by
  rw [assemble, if_pos he, Option.some_inj]
  apply BitVec.eq_of_toNat_eq
  rw [shiftedOperand_toNat (by omega) (by decide) (by decide), encode, packWord_toNat, opcodeOf]
  simp only [BitVec.toNat_ofNat]
  omega

theorem assemble_push {width : ItemWidth} {v : Nat} (hv : v < 2 ^ width.bits) :
    assemble width (.push v) = some (encode (.push (BitVec.ofNat 16 v))) := by
  have h16 : v < 2 ^ 16 := hv.trans_le (Nat.pow_le_pow_right (by decide) (by cases width <;> decide))
  rw [assemble, if_pos hv, Option.some_inj]
  apply BitVec.eq_of_toNat_eq
  rw [shiftedOperand_toNat (by omega) (by decide) (by decide), encode, packWord_toNat, opcodeOf]
  simp only [BitVec.toNat_ofNat]
  omega

/-- The command that an assembler command stands for. -/
def AsmCommand.toInstr : AsmCommand → Instr
  | .config e => .config (BitVec.ofNat 8 e)
  | .push v => .push (BitVec.ofNat 16 v)
  | .pop => .pop
  | .len => .len
  | .cap => .cap
  | .full => .full
  | .free => .free

/-- What assembles is in range, and is the encoding of a well-formed command. -/
theorem assemble_some {width : ItemWidth} {c : AsmCommand} {w : Word} (h : assemble width c = some w) :
    encode c.toInstr = w ∧ c.toInstr.wellFormed width = true := by
  cases c with
  | config e =>
    by_cases he : e ≤ 255
    · rw [assemble_config he, Option.some_inj] at h
      exact ⟨h, rfl⟩
    · simp [assemble, he] at h
  | push v =>
    by_cases hv : v < 2 ^ width.bits
    · rw [assemble_push hv, Option.some_inj] at h
      exact ⟨h, decide_eq_true ((Nat.mod_le ..).trans_lt hv)⟩
    · simp [assemble, hv] at h
  | pop | len | cap | full | free =>
    cases h
    exact ⟨rfl, rfl⟩

/-- An assembled CONFIG with an exponent that is not accepted was written with a number outside 2 to 16. -/
theorem exponent_of_rejected {width : ItemWidth} {c : AsmCommand} {w : Word} (h : assemble width c = some w) {e' : BitVec 8}
    (hc : c.toInstr = .config e') (he' : exponentOk e' = false) : ∃ e, c = .config e ∧ (e < 2 ∨ 16 < e) := by
  cases c with
  | config e =>
    have he : e ≤ 255 := by
      by_contra hne
      simp [assemble, hne] at h
    cases hc
    rw [← Bool.not_eq_true, exponentOk_iff, BitVec.toNat_ofNat, Nat.mod_eq_of_lt (by omega)] at he'
    exact ⟨e, rfl, by omega⟩
  | push v => cases hc
  | pop | len | cap | full | free => cases hc

/-- Settles O21: an assembled word decodes to its command, and an operand out of range fails the range test. -/
theorem assembledWordIsLegal : Obligations.AssembledWordIsLegal := by
  refine ⟨fun width c w h => ?_, fun width e he => assemble_config he width, fun width v hv => assemble_push hv,
    fun width e he => if_neg (by omega), fun width v hv => if_neg (by omega)⟩
  obtain ⟨rfl, hwf⟩ := assemble_some h
  refine ⟨c.toInstr, decode_encode _, hwf, fun p s hs hm => ?_⟩
  rw [issue_ok (decode_encode _)]
  obtain ⟨t, r, ht, hr, hst⟩ := exec_wellFormed_status (s := withPort p s) hm (hs ▸ hwf)
  exact ⟨t, r, ht, hr, hst.imp_right fun ⟨hcode, e, hc, he⟩ => ⟨hcode, exponent_of_rejected h hc he⟩⟩

end Sys2Proof.Machine
end

section
/-! The turns of a burst with no other port served between (30_encoding.md R70 to R72): one turn of a port as one command of the bounded
queue, and a port's turns in a row. -/

namespace Sys2Proof.Machine

/-! ### What a port's own turns keep -/

/-- What turns of port `p` alone keep, no CONFIG being among its commands: the invariant, the width, the capacity and the agents of
the other ports; the schedule `us` is left. -/
structure KeptByTurns (p : Port) (us : List Turn) (s t : State) : Prop where
  inv : BlockInv t
  itemBits : t.itemBits = s.itemBits
  exp : t.exp = s.exp
  producer : p ≠ .producer → t.producer = s.producer
  consumer : p ≠ .consumer → t.consumer = s.consumer
  host : p ≠ .host → t.host = s.host
  turns : t.turns = us

theorem KeptByTurns.refl {p : Port} {us : List Turn} {s : State} (h : BlockInv s) (hs : s.turns = us) : KeptByTurns p us s s :=
  ⟨h, rfl, rfl, fun _ => rfl, fun _ => rfl, fun _ => rfl, hs⟩

theorem KeptByTurns.trans {p : Port} {us us' : List Turn} {s t u : State} (hst : KeptByTurns p us' s t)
    (htu : KeptByTurns p us t u) : KeptByTurns p us s u :=
  ⟨htu.inv, htu.itemBits.trans hst.itemBits, htu.exp.trans hst.exp, fun h => (htu.producer h).trans (hst.producer h),
    fun h => (htu.consumer h).trans (hst.consumer h), fun h => (htu.host h).trans (hst.host h), htu.turns⟩

theorem withTurns_contents (us : List Turn) (s : State) : contents (withTurns us s) = contents s :=
  contents_congr rfl rfl rfl rfl rfl rfl

theorem settle_contents (p : Port) (s : State) : contents (settle p s) = contents s :=
  contents_congr (settle_itemBits p s) (settle_exp p s) (settle_rd p s) (settle_wr p s) (settle_store p s) (settle_era p s)

theorem deliver_contents (p : Port) (r : Response) (s : State) : contents (deliver p r s) = contents s :=
  contents_congr (deliver_itemBits p r s) (deliver_exp p r s) (deliver_rd p r s) (deliver_wr p r s) (deliver_store p r s)
    (deliver_era p r s)

/-- A turn used up by a port that presents nothing is such a turn. -/
theorem keptByTurns_settle (p : Port) (us : List Turn) {s : State} (h : BlockInv s) :
    KeptByTurns p us s (settle p (withTurns us s)) where
  inv := settle_inv p (withTurns_inv us h)
  itemBits := by rw [settle_itemBits, withTurns_itemBits]
  exp := by rw [settle_exp, withTurns_exp]
  producer hp := by cases p <;> trivial
  consumer hp := by cases p <;> trivial
  host hp := by cases p <;> trivial
  turns := by rw [settle_turns, withTurns_turns]

/-! ### One turn as one command of the queue -/

/-- The state after a turn of port `p` whose word was answered `r`: the items held are `items`, and that port's agent has taken the
response. -/
structure AnsweredTurn (p : Port) (r : Response) (items : List Item) (us : List Turn) (s t : State) : Prop
    extends KeptByTurns p us s t where
  items : contents t = items
  resp : t.resp = some (p, r)
  producerTook : p = .producer → t.producer = producerTake r s.producer
  consumerTook : p = .consumer → t.consumer = consumerTake s.itemBits r s.consumer

/-- A turn of a port whose agent has no ended burst to retire, in terms of the queue's answer to the word presented. -/
theorem step_answered {s : State} {p : Port} {w : Word} {r : Response} {items : List Item} {us : List Turn} (h : BlockInv s)
    (hs : s.turns = .port p :: us) (hsettled : settle p (withTurns us s) = withTurns us s)
    (hw : presented p (withTurns us s) = some w)
    (ha : queueExec s.itemBits p w (queueOf s) = (r, ⟨s.exp, items⟩)) :
    ∃ t, step s = .next t ∧ AnsweredTurn p r items us s t := by
  obtain ⟨u, hu, hinv, hr, hq⟩ := issue_refines p w (withTurns_inv us h)
  have hqs : queueOf (withTurns us s) = queueOf s := by rw [queueOf, withTurns_contents, withTurns_exp, queueOf]
  rw [withTurns_itemBits, hqs, ha] at hr hq
  obtain ⟨hexp, hitems⟩ := Queue.mk.inj hq
  obtain ⟨hbits, -, hprod, hcons, hhost, hturns, -⟩ := issue_frame hu
  refine ⟨deliver p r u, ?_, ⟨deliver_inv p r hinv, ?_, ?_, fun hp => ?_, fun hp => ?_, fun hp => ?_, ?_⟩, ?_, ?_, ?_, ?_⟩
  · rw [step_of_presented hs (hsettled ▸ hw), hsettled, handBack_next hu hr]
  · rw [deliver_itemBits, hbits, withTurns_itemBits]
  · rw [deliver_exp, hexp]
  · cases p <;> trivial
  · cases p <;> trivial
  · cases p <;> trivial
  · rw [deliver_turns, hturns, withTurns_turns]
  · rw [deliver_contents, hitems]
  · rw [deliver_resp, hr]
  · rintro rfl
    exact congrArg (producerTake r) hprod
  · rintro rfl
    exact congrArg₂ (fun width => consumerTake width r) hbits hcons

/-- The queue's answer to a command's word on a port that may issue it. -/
theorem queueExec_encode {i : Instr} {p : Port} (hm : mayIssue i p = true) (width : ItemWidth) (q : Queue) :
    queueExec width p (encode i) q = queueCommand width i q := by
  simp only [queueExec, decode_encode, hm, if_true]

end Sys2Proof.Machine
end

section
/-! The burst law of PUSHN (30_encoding.md R70, 41_push.md R93), by induction on the items still to push. -/

namespace Sys2Proof.Machine

/-! ### The newest items of a list -/

theorem keepNewest_of_length_le {n : Nat} {l : List Item} (h : l.length ≤ n) : keepNewest n l = l := by
  rw [keepNewest, Nat.sub_eq_zero_of_le h, List.drop_zero]

theorem keepNewest_length (n : Nat) (l : List Item) : (keepNewest n l).length = min n l.length := by
  rw [keepNewest, List.length_drop]
  omega

/-- What an earlier eviction dropped, a later one would have dropped. -/
theorem keepNewest_keepNewest_append (n : Nat) (l l' : List Item) :
    keepNewest n (keepNewest n l ++ l') = keepNewest n (l ++ l') := by
  simp only [keepNewest, List.drop_append, List.length_append, List.length_drop, List.drop_drop]
  congr 2 <;> omega

/-- The items held never exceed CAP. -/
theorem keepNewest_contents {s : State} (h : BlockInv s) : keepNewest (2 ^ s.exp.toNat) (contents s) = contents s :=
  keepNewest_of_length_le (by rw [contents_length]; exact h.occupancyLe)

/-! ### PUSHN -/

theorem queueExec_push {width : ItemWidth} {b : BitVec 16} (hb : b.toNat < 2 ^ width.bits) (q : Queue) :
    queueExec width .producer (encode (.push b)) q = (okNothing, ⟨q.exp, keepNewest (2 ^ q.exp.toNat) (q.items ++ [b])⟩) := by
  rw [queueExec_encode rfl, queueCommand, if_neg (not_le.2 hb)]

/-- One turn of a PUSHN burst pushes its next item. -/
theorem step_pushN {s : State} {b : Item} {bs : List Item} {n : Nat} {ts : List ProducerTask} {res : List AgentResult} {us : List Turn}
    (h : BlockInv s) (hp : s.producer = ⟨.pushN (b :: bs) n :: ts, res⟩)
    (hb : b.toNat < 2 ^ s.itemBits.bits)
    (hs : s.turns = .port .producer :: us) :
    ∃ t, step s = .next t ∧ KeptByTurns .producer us s t ∧
      contents t = keepNewest (2 ^ s.exp.toNat) (contents s ++ [b]) ∧
      t.producer = settleProducer (.pushN bs (n + 1) :: ts) res := by
  have hsettled : settle .producer (withTurns us s) = withTurns us s := by
    simp only [settle, withTurns, hp, settleProducer]
  have hw : presented .producer (withTurns us s) = some (encode (.push b)) := by
    simp only [presented, withTurns_producer, hp, producerWord]
  obtain ⟨t, ht, hturn⟩ := step_answered h hs hsettled hw (queueExec_push hb (queueOf s))
  refine ⟨t, ht, hturn.toKeptByTurns, hturn.items, ?_⟩
  rw [hturn.producerTook rfl, producerTake, hp]

/-- The producer's turns in a row: all items pushed, the newest CAP of old and new items held, the burst retired. -/
theorem run_pushN (bs : List Item) : ∀ {s : State} {n : Nat} {res : List AgentResult} {us : List Turn}, BlockInv s →
    s.producer = settleProducer [.pushN bs n] res → (∀ b ∈ bs, b.toNat < 2 ^ s.itemBits.bits) →
    s.turns = List.replicate bs.length (.port .producer) ++ us →
    ∃ t, Sys2Proof.core.run bs.length s = .next t ∧ KeptByTurns .producer us s t ∧
      contents t = keepNewest (2 ^ s.exp.toNat) (contents s ++ bs) ∧
      t.producer = ⟨[], res ++ [.pushed (n + bs.length)]⟩ := by
  induction bs with
  | nil =>
    intro s n res us h hp _ hs
    exact ⟨s, rfl, .refl h hs, by rw [List.append_nil, keepNewest_contents h], hp⟩
  | cons b bs ih =>
    intro s n res us h hp hfit hs
    obtain ⟨hb, hbs⟩ := List.forall_mem_cons.1 hfit
    obtain ⟨t, ht, hkept, hitems, hprod⟩ := step_pushN h hp hb hs
    obtain ⟨u, hu, hkept', hitems', hprod'⟩ := ih hkept.inv hprod (hkept.itemBits ▸ hbs) hkept.turns
    refine ⟨u, (core_run_succ ht _).trans hu, hkept.trans hkept', ?_, ?_⟩
    · rw [hitems', hkept.exp, hitems, keepNewest_keepNewest_append, List.append_assoc, List.singleton_append]
    · rw [hprod', List.length_cons, Nat.add_assoc, Nat.add_comm 1]

/-- A turn that finds only ended work retires it and leaves the block alone. -/
theorem run_nothing_presented {s : State} {p : Port} {us : List Turn} (hs : s.turns = .port p :: us)
    (hp : presented p (settle p (withTurns us s)) = none) :
    Sys2Proof.core.run 1 s = .next (settle p (withTurns us s)) :=
  core_run_succ (step_of_nothing_presented hs hp) 0

/-- Settles O47: `run_pushN`, with the one turn of an empty burst apart (log 16). -/
theorem pushBurstKeepsNewest : Obligations.PushBurstKeepsNewest := by
  intro s bs res us h hp hfit hs
  obtain ⟨t, hrun, hkept, hitems, hprod⟩ : ∃ t, Sys2Proof.core.run (max 1 bs.length) s = .next t ∧
      KeptByTurns .producer us s t ∧ contents t = keepNewest (2 ^ s.exp.toNat) (contents s ++ bs) ∧
      t.producer = ⟨[], res ++ [.pushed bs.length]⟩ := by
    cases bs with
    | nil =>
      have hsettle : (settle .producer (withTurns us s)).producer = ⟨[], res ++ [.pushed 0]⟩ := by
        simp only [settle, withTurns_producer, hp, settleProducer]
      refine ⟨_, run_nothing_presented (us := us) hs (by rw [presented, hsettle, producerWord]), keptByTurns_settle _ us h, ?_, hsettle⟩
      rw [settle_contents, withTurns_contents, List.append_nil, keepNewest_contents h]
    | cons b bs =>
      have hlen : max 1 (b :: bs).length = (b :: bs).length := max_eq_right (Nat.succ_pos _)
      rw [hlen] at hs ⊢
      obtain ⟨t, hrun, hkept, hitems, hprod⟩ := run_pushN (b :: bs) (n := 0) h hp hfit hs
      exact ⟨t, hrun, hkept, hitems, by rwa [Nat.zero_add] at hprod⟩
  refine ⟨t, hrun, hkept.inv, hprod, hkept.consumer (by decide), hkept.host (by decide), hkept.turns, hkept.exp, hitems, ?_⟩
  rw [hitems, keepNewest_length, List.length_append]

end Sys2Proof.Machine
end

section
/-! FETCH and FETCHL (30_encoding.md R71, R72, 42_fetch.md R102): the turns of the consumer in a row, and what a FETCHL can rely on
while other ports are served (70_reset_and_hazards.md R144). -/

namespace Sys2Proof.Machine

/-! ### The burst's bookkeeping -/

theorem settleConsumer_unfinished {m : Word} {out : List Item} (h : out.length < m.toNat) (ts : List ConsumerTask)
    (rs : List AgentResult) : settleConsumer (.fetch m out :: ts) rs = ⟨.fetch m out :: ts, rs⟩ := if_pos h

theorem settleConsumer_finished {m : Word} {out : List Item} (h : m.toNat ≤ out.length) (ts : List ConsumerTask)
    (rs : List AgentResult) :
    settleConsumer (.fetch m out :: ts) rs = settleConsumer ts (rs ++ [.fetched out.length out]) := if_neg (not_lt.2 h)

theorem minCount_toNat (m n : Word) : (minCount m n).toNat = min m.toNat n.toNat := by
  rw [minCount]
  split <;> omega

/-- A response's item field gives back the item that POP put there. -/
theorem setWidth_itemValue (v : Item) : (BitVec.setWidth 32 v).setWidth 16 = v := by
  rw [BitVec.setWidth_setWidth_of_le v (by decide), BitVec.setWidth_eq]

/-- Every item held fits the item width. -/
theorem itemOf_of_mem_contents {s : State} {v : Item} (h : v ∈ contents s) : itemOf s.itemBits v = v := by
  rw [contents, List.mem_map] at h
  obtain ⟨k, -, rfl⟩ := h
  exact itemOf_storeRead _ s

/-! ### The turns of FETCH -/

theorem queueExec_pop_item (width : ItemWidth) (exp : BitVec 5) (v : Item) (vs : List Item) :
    queueExec width .consumer (encode .pop) ⟨exp, v :: vs⟩ = (okValue (v.setWidth 32), ⟨exp, vs⟩) :=
  queueExec_encode rfl width _

theorem queueExec_pop_empty (width : ItemWidth) (exp : BitVec 5) :
    queueExec width .consumer (encode .pop) ⟨exp, []⟩ = (okNothing, ⟨exp, []⟩) :=
  queueExec_encode rfl width _

/-- A turn of an unfinished FETCH is one POP. -/
theorem step_fetch {s : State} {m : Word} {out : List Item} {ts : List ConsumerTask} {res : List AgentResult} {us : List Turn}
    {r : Response} {items : List Item} (h : BlockInv s) (hc : s.consumer = ⟨.fetch m out :: ts, res⟩)
    (hm : out.length < m.toNat) (hs : s.turns = .port .consumer :: us)
    (ha : queueExec s.itemBits .consumer (encode .pop) (queueOf s) = (r, ⟨s.exp, items⟩)) :
    ∃ t, step s = .next t ∧ AnsweredTurn .consumer r items us s t := by
  refine step_answered h hs ?_ ?_ ha
  · simp only [settle, withTurns, hc, settleConsumer_unfinished hm]
  · simp only [presented, withTurns_consumer, hc, consumerWord]

/-- On a buffer that holds an item the burst gets the oldest one. -/
theorem step_fetch_item {s : State} {m : Word} {out : List Item} {ts : List ConsumerTask} {res : List AgentResult}
    {us : List Turn} {v : Item} {vs : List Item} (h : BlockInv s) (hc : s.consumer = ⟨.fetch m out :: ts, res⟩)
    (hm : out.length < m.toNat) (hs : s.turns = .port .consumer :: us) (hv : contents s = v :: vs) :
    ∃ t, step s = .next t ∧ AnsweredTurn .consumer (okValue (v.setWidth 32)) vs us s t ∧
      t.consumer = settleConsumer (.fetch m (out ++ [v]) :: ts) res := by
  obtain ⟨t, ht, hturn⟩ := step_fetch h hc hm hs (hv ▸ queueExec_pop_item s.itemBits s.exp v vs)
  have hfit : itemOf s.itemBits v = v := itemOf_of_mem_contents (by rw [hv]; exact List.mem_cons_self)
  refine ⟨t, ht, hturn, ?_⟩
  simp only [hturn.consumerTook rfl, consumerTake, hc, okValue, if_true, setWidth_itemValue, hfit]

/-- On an empty buffer the burst ends with what it has got. -/
theorem step_fetch_empty {s : State} {m : Word} {out : List Item} {ts : List ConsumerTask} {res : List AgentResult}
    {us : List Turn} (h : BlockInv s) (hc : s.consumer = ⟨.fetch m out :: ts, res⟩)
    (hm : out.length < m.toNat) (hs : s.turns = .port .consumer :: us) (hv : contents s = []) :
    ∃ t, step s = .next t ∧ KeptByTurns .consumer us s t ∧ contents t = [] ∧
      t.consumer = settleConsumer ts (res ++ [.fetched out.length out]) := by
  obtain ⟨t, ht, hturn⟩ := step_fetch h hc hm hs (hv ▸ queueExec_pop_empty s.itemBits s.exp)
  refine ⟨t, ht, hturn.toKeptByTurns, hturn.items.trans hv, ?_⟩
  rw [hturn.consumerTook rfl, consumerTake, hc]
  rfl

/-- The consumer's turns in a row, no more than the items held and the items to get: each gets the oldest item. -/
theorem run_fetch (k : Nat) : ∀ {s : State} {m : Word} {out : List Item} {ts : List ConsumerTask} {res : List AgentResult}
    {us : List Turn}, BlockInv s → s.consumer = settleConsumer (.fetch m out :: ts) res → k ≤ (contents s).length →
    out.length + k ≤ m.toNat → s.turns = List.replicate k (.port .consumer) ++ us →
    ∃ t, Sys2Proof.core.run k s = .next t ∧ KeptByTurns .consumer us s t ∧ contents t = (contents s).drop k ∧
      t.consumer = settleConsumer (.fetch m (out ++ (contents s).take k) :: ts) res := by
  induction k with
  | zero =>
    intro s m out ts res us h hc _ _ hs
    exact ⟨s, rfl, .refl h hs, rfl, by rw [hc, List.take_zero, List.append_nil]⟩
  | succ k ih =>
    intro s m out ts res us h hc hk hm hs
    rw [settleConsumer_unfinished (by omega)] at hc
    obtain ⟨v, vs, hv⟩ := List.exists_cons_of_length_pos (Nat.zero_lt_of_lt hk)
    obtain ⟨t, ht, hturn, htook⟩ := step_fetch_item h hc (by omega) hs hv
    rw [hv, List.length_cons, Nat.succ_le_succ_iff] at hk
    obtain ⟨u, hu, hkept, hitems, hcons⟩ := ih hturn.inv htook (by rwa [hturn.items])
      (by rw [List.length_append, List.length_singleton]; omega) hturn.turns
    refine ⟨u, (core_run_succ ht _).trans hu, hturn.toKeptByTurns.trans hkept, ?_, ?_⟩
    · rw [hitems, hturn.items, hv, List.drop_succ_cons]
    · rw [hcons, hturn.items, hv, List.take_succ_cons, List.append_assoc, List.singleton_append]

/-- A run of `a + b` steps is a run of `a` and a run of `b`. -/
theorem core_run_add {a : Nat} : ∀ {s t : State}, Sys2Proof.core.run a s = .next t →
    ∀ b, Sys2Proof.core.run (a + b) s = Sys2Proof.core.run b t := by
  induction a with
  | zero =>
    intro s t h b
    cases h
    rw [Nat.zero_add]
  | succ a ih =>
    intro s t h b
    obtain ⟨u, hu, -⟩ := step_cases s
    rw [core_run_succ hu] at h
    rw [Nat.succ_add, core_run_succ hu, ih h]

/-- What FETCH comes to: the oldest `m` items, or all of them, are in the agent's results, and the buffer keeps the rest. -/
structure FetchedOldest (m : Nat) (res : List AgentResult) (us : List Turn) (s t : State) : Prop
    extends KeptByTurns .consumer us s t where
  items : contents t = (contents s).drop m
  result : t.consumer = ⟨[], res ++ [.fetched ((contents s).take m).length ((contents s).take m)]⟩

theorem run_fetch_within {s : State} {m : Word} {res : List AgentResult} {us : List Turn} (h : BlockInv s)
    (hc : s.consumer = settleConsumer [.fetch m []] res) (hm : m.toNat ≤ (contents s).length)
    (hs : s.turns = List.replicate m.toNat (.port .consumer) ++ us) :
    ∃ t, Sys2Proof.core.run m.toNat s = .next t ∧ FetchedOldest m.toNat res us s t := by
  obtain ⟨t, hrun, hkept, hitems, hcons⟩ := run_fetch m.toNat h hc hm (Nat.zero_add _).le hs
  rw [List.nil_append, settleConsumer_finished (by rw [List.length_take_of_le hm])] at hcons
  exact ⟨t, hrun, hkept, hitems, hcons⟩

/-- A FETCH of more items than are held takes them all, and one more POP that answers "no item". -/
theorem run_fetch_beyond {s : State} {m : Word} {res : List AgentResult} {us : List Turn} (h : BlockInv s)
    (hc : s.consumer = settleConsumer [.fetch m []] res) (hm : (contents s).length < m.toNat)
    (hs : s.turns = List.replicate ((contents s).length + 1) (.port .consumer) ++ us) :
    ∃ t, Sys2Proof.core.run ((contents s).length + 1) s = .next t ∧ FetchedOldest m.toNat res us s t := by
  rw [List.replicate_succ', List.append_assoc, List.singleton_append] at hs
  obtain ⟨t, hrun, hkept, hitems, hcons⟩ := run_fetch (contents s).length h hc le_rfl (by simpa using hm.le) hs
  rw [List.drop_length] at hitems
  rw [List.nil_append, List.take_length, settleConsumer_unfinished hm] at hcons
  obtain ⟨u, hstep, hkept', hitems', hcons'⟩ := step_fetch_empty hkept.inv hcons hm hkept.turns hitems
  refine ⟨u, (core_run_add hrun 1).trans (core_run_succ hstep 0), hkept.trans hkept', ?_, ?_⟩
  · rw [hitems', List.drop_of_length_le hm.le]
  · rw [hcons', List.take_of_length_le hm.le, settleConsumer]

/-- `FETCH 0` uses one turn up and issues nothing (log 16). -/
theorem run_fetch_zero {s : State} {m : Word} {res : List AgentResult} {us : List Turn} (h : BlockInv s)
    (hc : s.consumer = ⟨[.fetch m []], res⟩) (hm : m.toNat = 0) (hs : s.turns = .port .consumer :: us) :
    ∃ t, Sys2Proof.core.run 1 s = .next t ∧ FetchedOldest m.toNat res us s t := by
  have hsettle : (settle .consumer (withTurns us s)).consumer = ⟨[], res ++ [.fetched 0 []]⟩ := by
    simp only [settle, withTurns_consumer, hc]
    rw [settleConsumer_finished hm.le]
    rfl
  refine ⟨_, run_nothing_presented hs (by rw [presented, hsettle, consumerWord]), keptByTurns_settle _ us h, ?_, ?_⟩
  · rw [settle_contents, withTurns_contents, hm, List.drop_zero]
  · rw [hsettle, hm, List.take_zero, List.length_nil]

/-- Settles O48: `FETCH 0`, a FETCH within what is held, and one beyond it. -/
theorem fetchBurstReturnsOldest : Obligations.FetchBurstReturnsOldest := by
  intro s m res us h hc hs
  obtain ⟨t, hrun, hfetched⟩ : ∃ t, Sys2Proof.core.run (fetchTurns m.toNat (contents s).length) s = .next t ∧
      FetchedOldest m.toNat res us s t := by
    unfold fetchTurns at hs ⊢
    split_ifs at hs ⊢ with h0 hm
    · exact run_fetch_zero h hc h0 hs
    all_goals rw [← settleConsumer_unfinished (out := []) (Nat.pos_of_ne_zero h0)] at hc
    · exact run_fetch_within h hc hm hs
    · exact run_fetch_beyond h hc (not_le.1 hm) hs
  have hresult := hfetched.result
  rw [List.length_take] at hresult
  exact ⟨t, hrun, hfetched.inv, hresult, hfetched.items, hfetched.producer (by decide), hfetched.host (by decide),
    hfetched.turns, hfetched.exp⟩

/-! ### FETCHL -/

/-- The LEN of a FETCHL fixes the count `min(m, occupancy)` and leaves the items alone. -/
theorem step_fetchL {s : State} {m : Word} {ts : List ConsumerTask} {res : List AgentResult} {us : List Turn} (h : BlockInv s)
    (hc : s.consumer = ⟨.fetchL m :: ts, res⟩) (hs : s.turns = .port .consumer :: us) :
    ∃ t, step s = .next t ∧ KeptByTurns .consumer us s t ∧ contents t = contents s ∧
      t.consumer = settleConsumer (.fetch (minCount m (occupancy s)) [] :: ts) res := by
  have hlen : queueExec s.itemBits .consumer (encode .len) (queueOf s) = (okValue (occupancy s), queueOf s) :=
    (queueExec_encode rfl _ _).trans (queueCommand_len s)
  obtain ⟨t, ht, hturn⟩ := step_answered h hs (by simp only [settle, withTurns, hc, settleConsumer])
    (by simp only [presented, withTurns_consumer, hc, consumerWord]) hlen
  refine ⟨t, ht, hturn.toKeptByTurns, hturn.items, ?_⟩
  rw [hturn.consumerTook rfl, consumerTake, hc, okValue]

/-- Settles O49: after its LEN a FETCHL is a FETCH within what is held. -/
theorem snapshotFetchReturnsOldest : Obligations.SnapshotFetchReturnsOldest := by
  intro s m res us h hc hs
  have hcount : (minCount m (occupancy s)).toNat = min m.toNat (contents s).length := by
    rw [minCount_toNat, contents_length]
  rw [← hcount, Nat.add_comm, List.replicate_succ, List.cons_append] at hs
  obtain ⟨t, ht, hkept, hitems, hcons⟩ := step_fetchL h hc hs
  obtain ⟨u, hrun, hfetched⟩ := run_fetch_within hkept.inv hcons
    (by rw [hcount, hitems]; exact min_le_right ..) hkept.turns
  have hkept' := hkept.trans hfetched.toKeptByTurns
  have hresult := hfetched.result
  have hrest := hfetched.items
  rw [hitems, hcount] at hresult hrest
  rw [← List.take_eq_take_min, List.length_take] at hresult
  rw [List.drop_eq_drop_iff.2 (by omega : min (min m.toNat (contents s).length) _ = min m.toNat _)] at hrest
  refine ⟨u, ?_, hkept'.inv, hresult, hrest, hkept'.producer (by decide), hkept'.host (by decide), hkept'.turns, hkept'.exp⟩
  rw [← hcount, Nat.add_comm, core_run_succ ht, hrun]

/-! ### FETCHL while other ports are served -/

/-- No command of P or H takes an item away, an accepted CONFIG apart: an eviction makes room for the item pushed. -/
theorem occupancy_le_of_issue {p : Port} {w : Word} {s t : State} (h : BlockInv s) (hp : p ≠ .consumer)
    (hc : configures p w = false) (ht : issue p w s = .next t) : (occupancy s).toNat ≤ (occupancy t).toNat := by
  cases issue_writes ht with
  | nothing _ _ hrd hwr _ => rw [occupancy, occupancy, hrd, hwr]
  | config _ _ _ _ hc' => simp [hc] at hc'
  | pop _ hp' => exact absurd hp' hp
  | push d _ _ _ _ hrd hwr =>
    rcases hrd with hrd | ⟨hrd, -⟩
    · have hnext : occupancy t = occupancy s + 1#32 := by
        rw [occupancy, hwr, hrd]
        exact add_sub_right_comm s.wr 1#32 s.rd
      obtain ⟨-, hcap, hle⟩ := h.bounds
      have hone : (1#32).toNat = 1 := rfl
      rw [hnext, BitVec.toNat_add, hone]
      omega
    · rw [occupancy, occupancy, hrd, hwr, add_sub_add_right_eq_sub]

/-- A turn of another port leaves the consumer alone and, without an accepted CONFIG, takes no item away. -/
theorem step_other_port {s : State} {p : Port} {us : List Turn} (h : BlockInv s) (hs : s.turns = .port p :: us)
    (hp : p ≠ .consumer) (hc : p = .host → ∀ w, s.host.todo.head? = some w → configures .host w = false) :
    ∃ t, step s = .next t ∧ t.consumer = s.consumer ∧ (occupancy s).toNat ≤ (occupancy t).toNat := by
  have hconsumer : (settle p (withTurns us s)).consumer = s.consumer := by cases p <;> trivial
  have hoccupancy : occupancy (settle p (withTurns us s)) = occupancy s := by cases p <;> rfl
  cases hw : presented p (settle p (withTurns us s)) with
  | none => exact ⟨_, step_of_nothing_presented hs hw, hconsumer, by rw [hoccupancy]⟩
  | some w =>
    have hconf : configures p w = false := by
      cases p with
      | host => exact hc rfl w hw
      | producer | consumer =>
        rw [← Bool.not_eq_true, configures_iff]
        rintro ⟨e, -, ⟨⟩, -⟩
    obtain ⟨u, hu, -⟩ := issue_cases p w (settle p (withTurns us s))
    obtain ⟨r, hr⟩ := issue_resp hu
    obtain ⟨-, -, -, hcons, -⟩ := issue_frame hu
    have hle := occupancy_le_of_issue (settle_inv p (withTurns_inv us h)) hp hconf hu
    have hdeliver : (deliver p r u).consumer = u.consumer := by cases p <;> trivial
    have hoccupancy' : occupancy (deliver p r u) = occupancy u := by cases p <;> rfl
    refine ⟨_, (step_of_presented hs hw).trans (handBack_next hu hr), hdeliver.trans (hcons.trans hconsumer), ?_⟩
    rwa [hoccupancy', ← hoccupancy]

theorem agent_eq_of_todo {τ : Type} {a : Agent τ} {l : List τ} (h : a.todo = l) : a = ⟨l, a.results⟩ := h ▸ rfl

/-- Settles O50: the LEN counts items that only the consumer takes away, one with each POP. -/
theorem snapshotFetchNeverRunsShort : Obligations.SnapshotFetchNeverRunsShort := by
  refine ⟨fun s m ts us h hc hs => ?_, fun s n out ts p us h hc hlen hbound hs hconf => ?_⟩
  · obtain ⟨t, ht, -, hitems, hcons⟩ := step_fetchL h (agent_eq_of_todo hc) hs
    have hoccupancy : (t.wr - t.rd).toNat = (s.wr - s.rd).toNat := by
      have := congrArg List.length hitems
      rwa [contents_length, contents_length] at this
    have hcount : (minCount m (occupancy s)).toNat = min m.toNat (s.wr - s.rd).toNat := minCount_toNat ..
    exact ⟨t, _, ht, hcount, by rw [hcount, hoccupancy]; exact min_le_right .., hcons⟩
  · by_cases hp : p = .consumer
    · subst hp
      have hpos : 0 < (contents s).length := by
        rw [contents_length, occupancy]
        omega
      obtain ⟨v, vs, hv⟩ := List.exists_cons_of_length_pos hpos
      obtain ⟨t, ht, hturn, htook⟩ := step_fetch_item h (agent_eq_of_todo hc) hlen hs hv
      have hoccupancy : (s.wr - s.rd).toNat = (t.wr - t.rd).toNat + 1 := by
        have := congrArg List.length (hv.trans (congrArg (v :: ·) hturn.items.symm))
        rwa [List.length_cons, contents_length, contents_length] at this
      exact ⟨t, ht, fun hne => absurd rfl hne, fun _ => ⟨v, hturn.resp, by rw [hturn.items, hv], by omega, htook⟩⟩
    · obtain ⟨t, ht, hcons, hle⟩ := step_other_port h hs hp hconf
      exact ⟨t, ht, fun _ => ⟨hcons, hbound.trans hle⟩, fun h => absurd h hp⟩

end Sys2Proof.Machine
end

section
/-! CONFIG (40_config.md R81, R82): its word, its two answers on port H, its answer to a word that fails a check, and the flags
after it. -/

namespace Sys2Proof.Machine

theorem namedCommand_config {w : Word} (hop : opField w = 0x1#4) : namedCommand w = .config (argField w) := if_pos hop

/-- A word is CONFIG when it selects CONFIG's row, and the exponent is its ARG (30_encoding.md R61, R63). -/
theorem decode_config_iff (w : Word) (e : BitVec 8) :
    decode w = .ok (.config e) ↔ w &&& 0xFFFF00FF#32 = 0x00000001#32 ∧ e = w.extractLsb' 8 8 := by
  refine ⟨fun h => ⟨selects_rowOf_of_decode h, argField_of_decode_config h⟩, fun ⟨hrow, he⟩ => ?_⟩
  obtain ⟨hop, hpass⟩ := (selects_rowOf_iff w (.config e)).1 hrow
  rw [decode_of_passes hpass, namedCommand_config hop, he, argField]

theorem exponentOk_eq_false_iff (e : BitVec 8) : exponentOk e = false ↔ e.toNat < 2 ∨ 16 < e.toNat := by
  rw [← Bool.not_eq_true, exponentOk_iff]
  omega

/-- CONFIG on a port other than H is ILLEGAL_COMMAND, whatever its exponent (60_exceptions.md R132). -/
theorem exec_config_refused {e : BitVec 8} {s : State} (hp : s.port ≠ .host) :
    exec (.config e) s = .next (respond .illegalCommand false 0#32 s) := by
  refine exec_refused ?_
  rwa [← Bool.not_eq_true, mayIssue_config]

/-- A word with CONFIG's opcode that fails a check of 30_encoding.md R65 is ILLEGAL_COMMAND. -/
theorem issue_config_illegal {p : Port} {w : Word} (hop : opField w = 0x1#4)
    (hbad : rsvField w ≠ 0x0#4 ∨ dataField w ≠ 0x0#16 ∨ p ≠ .host) (s : State) :
    issue p w s = .next (respond .illegalCommand false 0#32 (withPort p s)) := by
  cases hd : decode w with
  | error r => exact issue_error hd p s
  | ok i =>
    obtain ⟨-, hrsv, -, hdata⟩ := passes_of_decode hd
    have hi : i = .config (argField w) := (eq_namedCommand_of_decode hd).trans (namedCommand_config hop)
    have hport : p ≠ .host := (hbad.resolve_left (not_not.2 hrsv)).resolve_left (not_not.2 (hdata (by simp [hop])))
    rw [issue_ok hd, hi]
    exact exec_config_refused (s := withPort p s) hport

/-- A buffer just configured holds nothing, which is below any capacity. -/
theorem configure_flags (e : BitVec 8) (s : State) :
    isEmpty (configure e s) = true ∧ isFull (configure e s) = false ∧ hasFree (configure e s) = true := by
  have h0 : (occupancy (configure e s)).toNat = 0 := by rw [occupancy, configure_wr, configure_rd]; rfl
  have hcap := Nat.two_pow_pos (configure e s).exp.toNat
  rw [isEmpty_iff_occupancy, ← Bool.not_eq_true, isFull_iff_occupancy, hasFree_iff_occupancy, h0]
  exact ⟨rfl, hcap.ne, hcap⟩

/-- Settles O1: the word by its row, the answers of an exponent in range, out of range and on another port, the word checks, the
flags of an emptied buffer. -/
theorem configCommandRule : Obligations.ConfigCommandRule := by
  refine ⟨decode_config_iff, fun e s hp h2 h16 => ?_, fun e s hp he => ?_, fun e s hp => exec_config_refused hp,
    fun p w s hop hbad => issue_config_illegal hop hbad s, fun e s hp h2 h16 => ?_⟩
  · rw [exec_config_accepted hp ((exponentOk_iff e).2 ⟨h2, h16⟩), ← hp]
    rfl
  · rw [exec_config_rejected hp ((exponentOk_eq_false_iff e).2 he), ← hp]
    rfl
  · have he : exponentOk e = true := (exponentOk_iff e).2 ⟨h2, h16⟩
    exact ⟨_, exec_config_accepted hp he, setWidth_exponent_toNat he, configure_flags e s⟩

/-! ### What CONFIG leaves alone -/

/-- CONFIG only responds, or configures and responds. -/
theorem exec_config_cases {e : BitVec 8} {s t : State} (h : exec (.config e) s = .next t) :
    (∃ st, st ≠ .ok ∧ t = respond st false 0#32 s) ∨
    (s.port = .host ∧ exponentOk e = true ∧ t = respond .ok false 0#32 (configure e s)) := by
  by_cases hp : s.port = .host
  · cases he : exponentOk e with
    | true =>
      cases (exec_config_accepted hp he).symm.trans h
      exact .inr ⟨hp, rfl, rfl⟩
    | false =>
      cases (exec_config_rejected hp he).symm.trans h
      exact .inl ⟨.invalidCapacity, by decide, rfl⟩
  · cases (exec_config_refused hp).symm.trans h
    exact .inl ⟨.illegalCommand, by decide, rfl⟩

/-- Settles O34: neither a response nor `configure` writes the store or what stands outside the block. -/
theorem configFrame : Obligations.ConfigFrame := by
  intro e s t h
  rcases exec_config_cases h with ⟨st, -, rfl⟩ | ⟨-, -, rfl⟩ <;>
    exact ⟨rfl, rfl, rfl, rfl, rfl, rfl, rfl, fun _ => storeRead_congr rfl rfl rfl _⟩

/-- Settles O16: a rejected CONFIG only responds, which leaves the queue alone. -/
theorem rejectedConfigKeepsItems : Obligations.RejectedConfigKeepsItems := fun e _ hp he =>
  ⟨_, exec_config_rejected hp ((exponentOk_eq_false_iff e).2 he), rfl, rfl, rfl, rfl, queueOf_respond ..⟩

end Sys2Proof.Machine
end

section
/-! CONFIG under traffic (40_config.md R83): an empty buffer stays empty, and gives up no item, along a schedule that adds none. -/

namespace Sys2Proof.Machine

/-- An accepted CONFIG answers OK and leaves the buffer empty; its items are discarded, not handed out. -/
theorem issue_of_configures {p : Port} {w : Word} (h : configures p w = true) (s : State) :
    ∃ t, issue p w s = .next t ∧ t.resp = some (p, okNothing) ∧ contents t = [] ∧ departure p w s = [] := by
  obtain ⟨e, hd, rfl, he⟩ := (configures_iff p w).1 h
  exact ⟨_, (issue_ok hd .host s).trans (exec_config_accepted rfl he), rfl,
    (respond_contents ..).trans (contents_configure ..), by rw [departure, hd]⟩

/-- A command that adds no item to an empty buffer takes none and leaves it empty. -/
theorem issue_keeps_empty {p : Port} {w : Word} {s t : State} (h : BlockInv s) (hempty : contents s = [])
    (harr : arrival s.itemBits p w = []) (ht : issue p w s = .next t) : departure p w s = [] ∧ contents t = [] := by
  cases hc : configures p w with
  | true =>
    obtain ⟨t', ht', -, htempty, hleft⟩ := issue_of_configures hc s
    cases ht'.symm.trans ht
    exact ⟨hleft, htempty⟩
  | false =>
    have hconserve := issue_conserves h hc ht
    rw [hempty, harr, List.append_nil, eq_comm, List.append_eq_nil_iff, List.map_eq_nil_iff] at hconserve
    exact hconserve

/-- The same along a schedule, accepted CONFIGs included. -/
theorem runCommands_keeps_empty {cs : List (Port × Word)} {s t : State} {rs : List Response} (h : BlockInv s)
    (hempty : contents s = []) (harr : ∀ c ∈ cs, arrival s.itemBits c.1 c.2 = [])
    (hrun : runCommands cs s = some (rs, t)) : departures cs s = [] ∧ contents t = [] := by
  induction cs generalizing s rs with
  | nil =>
    cases hrun
    exact ⟨rfl, hempty⟩
  | cons c cs ih =>
    obtain ⟨p, w⟩ := c
    obtain ⟨u, r, rs', hu, -, hrest, -⟩ := runCommands_cons_inv hrun
    obtain ⟨harr1, harr2⟩ := List.forall_mem_cons.1 harr
    obtain ⟨hwidth, -⟩ := issue_frame hu
    obtain ⟨hleft, huempty⟩ := issue_keeps_empty h hempty harr1 hu
    obtain ⟨hlater, htempty⟩ := ih (issue_inv h hu) huempty (by rwa [hwidth]) hrest
    exact ⟨by rw [departures_cons hu, hleft, hlater, List.append_nil], htempty⟩

/-- Settles O46: CONFIG empties the buffer, and the values popped after it are the items that leave by a POP. -/
theorem configDiscardsItems : Obligations.ConfigDiscardsItems := by
  intro w cs s h hw harr
  obtain ⟨u, hu, hresp, huempty, -⟩ := issue_of_configures hw s
  obtain ⟨rs, t, hrun⟩ := runCommands_total cs u
  obtain ⟨hwidth, -⟩ := issue_frame hu
  obtain ⟨hleft, htempty⟩ := runCommands_keeps_empty (issue_inv h hu) huempty (by rwa [hwidth]) hrun
  refine ⟨okNothing, rs, t, ?_, rfl, ?_, htempty⟩
  · rw [runCommands_cons hu hresp, hrun, Option.map_some]
  · rw [poppedValues_eq_departures hrun, hleft]
    rfl

end Sys2Proof.Machine
end

section
/-! PUSH (41_push.md R90, R92): its word, what the append writes with and without an eviction, its answer to a word that fails a
check, the flags after it, the slot written at an eviction and at the counter wrap, and its frame. -/

namespace Sys2Proof.Machine

/-! ### The word and the refused forms -/

theorem namedCommand_push {w : Word} (hop : opField w = 0x2#4) : namedCommand w = .push (dataField w) := by
  rw [namedCommand, hop]
  rfl

/-- A word is PUSH when it selects PUSH's row, and the item is its DATA (30_encoding.md R61, R63). -/
theorem decode_push_iff (w : Word) (d : BitVec 16) :
    decode w = .ok (.push d) ↔ w &&& 0x0000FFFF#32 = 0x00000002#32 ∧ d = w.extractLsb' 16 16 := by
  refine ⟨fun h => ⟨selects_rowOf_of_decode h, ?_⟩, fun ⟨hrow, hd⟩ => ?_⟩
  · have hpush := eq_namedCommand_of_decode h
    rw [namedCommand_push (opField_of_decode h)] at hpush
    exact Instr.push.inj hpush
  · obtain ⟨hop, hpass⟩ := (selects_rowOf_iff w (.push d)).1 hrow
    rw [decode_of_passes hpass, namedCommand_push hop, hd, dataField]

theorem itemTooWide_eq_true_iff (width : ItemWidth) (d : BitVec 16) :
    itemTooWide width d = true ↔ 2 ^ width.bits ≤ d.toNat := by
  rw [itemTooWide_eq, decide_eq_true_iff]

theorem itemTooWide_eq_false_iff (width : ItemWidth) (d : BitVec 16) :
    itemTooWide width d = false ↔ d.toNat < 2 ^ width.bits := by
  rw [itemTooWide_eq, decide_eq_false_iff_not, not_le]

/-- PUSH on a port other than P, or of an item that is too wide, is ILLEGAL_COMMAND. -/
theorem exec_push_illegal {d : BitVec 16} {s : State} (hbad : s.port ≠ .producer ∨ itemTooWide s.itemBits d = true) :
    exec (.push d) s = .next (respond .illegalCommand false 0#32 s) := by
  by_cases hp : s.port = .producer
  · exact exec_push_tooWide hp (hbad.resolve_left (not_not.2 hp))
  · refine exec_refused ?_
    rwa [← Bool.not_eq_true, mayIssue_push]

/-- A word with PUSH's opcode that fails a check of 30_encoding.md R65 is ILLEGAL_COMMAND. -/
theorem issue_push_illegal {p : Port} {w : Word} {s : State} (hop : opField w = 0x2#4)
    (hbad : rsvField w ≠ 0x0#4 ∨ argField w ≠ 0x0#8 ∨ p ≠ .producer ∨ itemTooWide s.itemBits (dataField w) = true) :
    issue p w s = .next (respond .illegalCommand false 0#32 (withPort p s)) := by
  cases hd : decode w with
  | error r => exact issue_error hd p s
  | ok i =>
    obtain ⟨-, hrsv, harg, -⟩ := passes_of_decode hd
    have hi : i = .push (dataField w) := (eq_namedCommand_of_decode hd).trans (namedCommand_push hop)
    rw [issue_ok hd, hi]
    exact exec_push_illegal (s := withPort p s)
      ((hbad.resolve_left (not_not.2 hrsv)).resolve_left (not_not.2 (harg (by simp [hop]))))

/-- PUSH only responds, or appends its item and responds. -/
theorem exec_push_cases {d : BitVec 16} {s t : State} (h : exec (.push d) s = .next t) :
    ((s.port ≠ .producer ∨ itemTooWide s.itemBits d = true) ∧ t = respond .illegalCommand false 0#32 s) ∨
    (s.port = .producer ∧ itemTooWide s.itemBits d = false ∧ t = respond .ok false 0#32 (appendItem d s)) := by
  by_cases hbad : s.port ≠ .producer ∨ itemTooWide s.itemBits d = true
  · cases (exec_push_illegal hbad).symm.trans h
    exact .inl ⟨hbad, rfl⟩
  · simp only [not_or, not_not, Bool.not_eq_true] at hbad
    obtain ⟨hp, hd⟩ := hbad
    cases (exec_push_fits hp hd).symm.trans h
    exact .inr ⟨hp, hd, rfl⟩

/-! ### What the append writes -/

theorem evictIfFull_of_full {s : State} (h : isFull s = true) : evictIfFull s = advanceRd s := if_pos h

theorem evictIfFull_of_not_full {s : State} (h : isFull s = false) : evictIfFull s = s := if_neg (by simp [h])

/-- The append writes one slot and the two counters, `rd` as the eviction leaves it, and nothing else. -/
theorem appendItem_eq_storeWrite (d : BitVec 16) (s : State) :
    appendItem d s =
      { storeWrite (slotOf s.exp s.wr) (itemOf s.itemBits d) s with rd := (evictIfFull s).rd, wr := s.wr + 1#32 } := by
  cases hf : isFull s with
  | true =>
    rw [appendItem, evictIfFull_of_full hf]
    rfl
  | false =>
    rw [appendItem, evictIfFull_of_not_full hf]
    rfl

/-- Every slot but the one written reads as before. -/
theorem storeRead_appendItem_other {a : BitVec 16} {s : State} (ha : a ≠ slotOf s.exp s.wr) (d : BitVec 16) :
    storeRead a (appendItem d s) = storeRead a s := by
  rw [appendItem_eq_storeWrite, ← storeRead_storeWrite_other ha (itemOf s.itemBits d) s]
  exact storeRead_congr rfl rfl rfl a

/-- An accepted PUSH, written out. -/
theorem exec_push_eq {d : BitVec 16} {s : State} (hp : s.port = .producer) (hd : d.toNat < 2 ^ s.itemBits.bits) :
    exec (.push d) s = .next { storeWrite (slotOf s.exp s.wr) d s with
      rd := (evictIfFull s).rd, wr := s.wr + 1#32, resp := some (.producer, ⟨.ok, false, 0#32⟩) } := by
  have hfits := (itemTooWide_eq_false_iff _ _).2 hd
  rw [exec_push_fits hp hfits, appendItem_eq_storeWrite, itemOf_of_fits hfits, ← hp]
  rfl

/-! ### The flags after it -/

theorem occupancy_appendItem {s : State} (h : BlockInv s) (d : BitVec 16) :
    (occupancy (appendItem d s)).toNat = min ((occupancy s).toNat + 1) (2 ^ s.exp.toNat) := by
  rw [← contents_length, contents_appendItem h, keepNewest_length, List.length_append, contents_length,
    List.length_singleton, min_comm]

theorem appendItem_flags {s : State} (h : BlockInv s) (d : BitVec 16) :
    isEmpty (appendItem d s) = false ∧
      (isFull (appendItem d s) = true ↔ 2 ^ s.exp.toNat - 1 ≤ (occupancy s).toNat) ∧
      (hasFree (appendItem d s) = true ↔ (occupancy s).toNat < 2 ^ s.exp.toNat - 1) := by
  obtain ⟨hcap, -, hle⟩ := h.bounds
  rw [← Bool.not_eq_true, isEmpty_iff_occupancy, isFull_iff_occupancy, hasFree_iff_occupancy, appendItem_exp,
    occupancy_appendItem h]
  omega

/-! ### The slot written -/

/-- On a full buffer `wr` is CAP above `rd`, so both name the slot of the item evicted. -/
theorem slotOf_wr_of_full {s : State} (h : (occupancy s).toNat = 2 ^ s.exp.toNat) :
    slotOf s.exp s.wr = slotOf s.exp s.rd := by
  have hwr : s.rd + occupancy s = s.wr := by rw [occupancy, add_sub_cancel]
  rw [← hwr, slotOf_add_multiple (by rw [h, Nat.mod_self])]

/-- The slot of the largest index is MASK. -/
theorem slotOf_last_toNat {e : BitVec 5} (he : e.toNat ≤ 16) : (slotOf e 0xFFFFFFFF#32).toNat = 2 ^ e.toNat - 1 := by
  have hle := two_pow_exp_le he
  have hpos := Nat.two_pow_pos e.toNat
  have hmask : 0xFFFFFFFF#32 &&& maskOf e = maskOf e := BitVec.allOnes_and
  rw [slotOf, hmask, BitVec.toNat_setWidth, maskOf_toNat, Nat.mod_eq_of_lt (by omega)]

/-- Settles O2: the word by its row, the append with `rd` as the eviction leaves it, the refused forms, the flags by the
occupancy, and the two slots. -/
theorem pushCommandRule : Obligations.PushCommandRule := by
  refine ⟨decode_push_iff, fun d s hp hd hnot => ?_, fun d s hp hd hfull => ?_, fun d s hbad => ?_,
    fun p w s hop hbad => issue_push_illegal hop ?_, fun d s h hp hd => ?_, fun s h => slotOf_wr_of_full h,
    fun s he hwr => ?_⟩
  · have hf : isFull s = false := by rwa [← Bool.not_eq_true, isFull_iff_occupancy]
    rw [exec_push_eq hp hd, evictIfFull_of_not_full hf]
    rfl
  · rw [exec_push_eq hp hd, evictIfFull_of_full ((isFull_iff_occupancy s).2 hfull), advanceRd_rd]
  · rw [← itemTooWide_eq_true_iff] at hbad
    exact exec_push_illegal hbad
  · rwa [itemTooWide_iff, dataField_high]
  · exact ⟨_, exec_push_fits hp ((itemTooWide_eq_false_iff _ _).2 hd), occupancy_appendItem h d, appendItem_flags h d⟩
  · rw [hwr]
    exact ⟨rfl, slotOf_last_toNat he⟩

/-! ### What PUSH leaves alone -/

/-- Settles O32: a refused PUSH only responds; an append writes the slot at `wr` and the counters, `rd` only by an eviction. -/
theorem pushFrame : Obligations.PushFrame := by
  intro d s t h
  rw [← itemTooWide_eq_true_iff]
  rcases exec_push_cases h with ⟨-, rfl⟩ | ⟨hp, hd, rfl⟩
  · have hread : ∀ a, storeRead a (respond .illegalCommand false 0#32 s) = storeRead a s := storeRead_congr rfl rfl rfl
    exact ⟨⟨rfl, rfl, rfl, rfl, rfl, rfl, rfl, rfl⟩, fun _ => rfl, fun a _ => hread a, fun _ => ⟨rfl, rfl, hread⟩⟩
  · refine ⟨?_, fun hf => ?_, fun a ha => ?_, fun hbad => ?_⟩
    · rw [appendItem_eq_storeWrite]
      exact ⟨rfl, rfl, rfl, rfl, rfl, rfl, rfl, rfl⟩
    · rw [appendItem_eq_storeWrite, evictIfFull_of_not_full hf]
      rfl
    · rw [← storeRead_appendItem_other ha d]
      exact storeRead_congr rfl rfl rfl a
    · simp [hp, hd] at hbad

/-- Settles O17: both states accept the item or both refuse it, and an append with an eviction writes the fields of any
append. -/
theorem evictionIsSilent : Obligations.EvictionIsSilent := by
  intro d s u hs hu hwidth _ _
  cases hd : itemTooWide s.itemBits d with
  | true =>
    exact ⟨_, _, exec_push_tooWide hs hd, exec_push_tooWide hu (hwidth ▸ hd), by simp [hs, hu], rfl⟩
  | false =>
    refine ⟨_, _, exec_push_fits hs hd, exec_push_fits hu (hwidth ▸ hd), by simp [appendItem_port, hs, hu], ?_⟩
    rw [appendItem_eq_storeWrite]
    rfl

end Sys2Proof.Machine
end

section
/-! A PUSHN and then a FETCH (41_push.md R93, 42_fetch.md R103, R104): the laws of the two bursts put together. -/

namespace Sys2Proof.Machine

/-- Settles O51: the PUSHN leaves the newest items (`pushBurstKeepsNewest`), the FETCH takes the oldest of those
(`fetchBurstReturnsOldest`). -/
theorem pushBurstThenFetchBurst : Obligations.PushBurstThenFetchBurst := by
  intro s bs m rp rc us h hempty hp hc hfit hs
  obtain ⟨t, hpush, hinv, hprod, hcons, -, hturns, -, hitems, hlen⟩ := pushBurstKeepsNewest s bs rp _ h hp hfit hs
  rw [contents_of_isEmpty hempty, List.nil_append] at hitems
  rw [contents_of_isEmpty hempty, List.length_nil, Nat.zero_add] at hlen
  rw [← hlen] at hturns
  obtain ⟨u, hfetch, -, hresult, hrest, hprod', -⟩ := fetchBurstReturnsOldest t m rc us hinv (hcons.trans hc) hturns
  rw [hlen] at hfetch hresult
  rw [hitems] at hresult
  refine ⟨u, (core_run_add hpush _).trans hfetch, hprod'.trans hprod, hresult, ?_⟩
  have hleft : (u.wr - u.rd).toNat = (contents u).length := (contents_length u).symm
  rw [hleft, hrest, List.length_drop, hlen]
  omega

end Sys2Proof.Machine
end

section
/-! POP (42_fetch.md R100): its answers on port C and elsewhere, its answer to a word that fails a check, the flags after an item is
taken, and its frame. -/

namespace Sys2Proof.Machine

/-! ### The refused forms -/

theorem namedCommand_pop {w : Word} (hop : opField w = 0x3#4) : namedCommand w = .pop := by
  rw [namedCommand, hop]
  rfl

/-- POP on a port other than C is ILLEGAL_COMMAND (60_exceptions.md R132). -/
theorem exec_pop_refused {s : State} (hp : s.port ≠ .consumer) :
    exec .pop s = .next (respond .illegalCommand false 0#32 s) := by
  refine exec_refused ?_
  rwa [← Bool.not_eq_true, mayIssue_pop]

/-- A word with POP's opcode that has any other bit set, or comes from a port other than C, is ILLEGAL_COMMAND. -/
theorem issue_pop_illegal {p : Port} {w : Word} (hop : opField w = 0x3#4) (hbad : w ≠ 0x00000003#32 ∨ p ≠ .consumer)
    (s : State) : issue p w s = .next (respond .illegalCommand false 0#32 (withPort p s)) := by
  cases hd : decode w with
  | error r => exact issue_error hd p s
  | ok i =>
    have hi : i = .pop := (eq_namedCommand_of_decode hd).trans (namedCommand_pop hop)
    subst hi
    rw [issue_ok hd]
    exact exec_pop_refused (s := withPort p s) (hbad.resolve_left (not_not.2 ((decode_pop_iff w).1 hd)))

/-- POP only responds, with a refusal or with "no item", or takes the oldest item and responds. -/
theorem exec_pop_cases {s t : State} (h : exec .pop s = .next t) :
    (∃ st, t = respond st false 0#32 s) ∨
    (s.port = .consumer ∧ isEmpty s = false ∧ t = respond .ok true (itemValue (oldestItem s)) (advanceRd s)) := by
  by_cases hp : s.port = .consumer
  · cases he : isEmpty s with
    | true =>
      cases (exec_pop_empty hp he).symm.trans h
      exact .inl ⟨.ok, rfl⟩
    | false =>
      cases (exec_pop_item hp he).symm.trans h
      exact .inr ⟨hp, rfl, rfl⟩
  · cases (exec_pop_refused hp).symm.trans h
    exact .inl ⟨.illegalCommand, rfl⟩

/-! ### The item taken -/

/-- A buffer that has given up an item has room for one (42_fetch.md R100). -/
theorem advanceRd_flags {s : State} (h : BlockInv s) (h0 : (occupancy s).toNat ≠ 0) :
    isFull (advanceRd s) = false ∧ hasFree (advanceRd s) = true ∧
      (isEmpty (advanceRd s) = true ↔ (occupancy s).toNat = 1) := by
  have hle := h.occupancyLe
  rw [← Bool.not_eq_true, isFull_iff_occupancy, hasFree_iff_occupancy, isEmpty_iff_occupancy, advanceRd_exp,
    occupancy_advanceRd h0]
  omega

/-- An item read from a slot is below 2^ITEM_BITS (00_scope.md R11). -/
theorem storeRead_toNat_lt (s : State) (a : BitVec 16) : (storeRead a s).toNat < 2 ^ s.itemBits.bits := by
  rw [← itemOf_storeRead, itemOf_toNat]
  exact Nat.mod_lt _ (Nat.two_pow_pos _)

/-- Settles O3: the one word (`decode_pop_iff`), the answers of an empty buffer, of one that holds an item and of
another port, the word checks, the flags by the occupancy, the width of an item, and the slot at the counter wrap. -/
theorem popCommandRule : Obligations.PopCommandRule := by
  refine ⟨decode_pop_iff, fun s hp hempty => ?_, fun s hp hitem => ?_, fun s hp => exec_pop_refused hp,
    fun p w s hop hbad => issue_pop_illegal hop hbad s, fun s h hp hitem => ?_, storeRead_toNat_lt, fun s he hrd => ?_⟩
  · rw [exec_pop_empty hp (beq_iff_eq.2 hempty), ← hp]
    rfl
  · rw [exec_pop_item hp (beq_eq_false_iff_ne.2 hitem), ← hp]
    rfl
  · have h0 : (occupancy s).toNat ≠ 0 := Nat.one_le_iff_ne_zero.1 hitem
    have he : isEmpty s = false := by rwa [← Bool.not_eq_true, isEmpty_iff_occupancy]
    exact ⟨_, exec_pop_item hp he, occupancy_advanceRd h0, advanceRd_flags h h0⟩
  · rw [hrd]
    exact ⟨rfl, slotOf_last_toNat he⟩

/-! ### What POP leaves alone -/

/-- Settles O33: a response writes no element of the block, and taking an item advances `rd` only. -/
theorem popFrame : Obligations.PopFrame := by
  intro s t h
  rcases exec_pop_cases h with ⟨st, rfl⟩ | ⟨hp, he, rfl⟩
  · exact ⟨rfl, rfl, rfl, rfl, rfl, rfl, rfl, rfl, rfl, storeRead_congr rfl rfl rfl, fun _ => rfl⟩
  · refine ⟨rfl, rfl, rfl, rfl, rfl, rfl, rfl, rfl, rfl, fun a => ?_, fun hkept => ?_⟩
    · exact (storeRead_congr rfl rfl rfl a).trans (storeRead_advanceRd a s)
    · simp [hp, he] at hkept

end Sys2Proof.Machine
end

section
/-! The status commands LEN, CAP, FULL and FREE (43_status.md R110 to R113): the one word of each, its answer on every port, the
two flags as complements, and LEN and FULL after an eviction. -/

namespace Sys2Proof.Machine

/-! ### The word and the refused forms -/

/-- The decoder accepts, as a command, the word that the encoder writes for it and no other. -/
theorem decode_eq_ok_iff (w : Word) (i : Instr) : decode w = .ok i ↔ w = encode i :=
  ⟨fun h => (encode_of_decode h).symm, fun h => h ▸ decode_encode i⟩

/-- A status command has no operand, so its opcode names it (30_encoding.md R62). -/
theorem namedCommand_status {i : Instr} (hi : i = .len ∨ i = .cap ∨ i = .full ∨ i = .free) {w : Word}
    (hop : opField w = opcodeOf i) : namedCommand w = i := by
  rw [namedCommand, hop]
  rcases hi with rfl | rfl | rfl | rfl <;> rfl

/-- A word with a status command's opcode and any other bit set is ILLEGAL_COMMAND. -/
theorem issue_status_illegal {i : Instr} (hi : i = .len ∨ i = .cap ∨ i = .full ∨ i = .free) {w : Word}
    (hop : opField w = opcodeOf i) (hne : w ≠ encode i) (p : Port) (s : State) :
    issue p w s = .next (respond .illegalCommand false 0#32 (withPort p s)) := by
  cases hd : decode w with
  | error r => exact issue_error hd p s
  | ok j =>
    obtain rfl : j = i := (eq_namedCommand_of_decode hd).trans (namedCommand_status hi hop)
    exact absurd ((decode_eq_ok_iff w j).1 hd) hne

/-! ### The answers -/

theorem exec_len (s : State) : exec .len s = .next (respond .ok true (occupancy s) s) := rfl

theorem exec_cap (s : State) : exec .cap s = .next (respond .ok true (capacity s) s) := rfl

theorem exec_full (s : State) : exec .full s = .next (respond .ok true (flagValue (isFull s)) s) := rfl

theorem exec_free (s : State) : exec .free s = .next (respond .ok true (flagValue (hasFree s)) s) := rfl

theorem flagValue_isFull (s : State) :
    flagValue (isFull s) = if (occupancy s).toNat = 2 ^ s.exp.toNat then 1#32 else 0#32 := by
  simp only [flagValue, isFull_iff_occupancy]

theorem flagValue_hasFree (s : State) :
    flagValue (hasFree s) = if (occupancy s).toNat < 2 ^ s.exp.toNat then 1#32 else 0#32 := by
  simp only [flagValue, hasFree_iff_occupancy]

theorem flagValue_not (c : Bool) : flagValue (!c) = 1#32 - flagValue c := by
  cases c <;> rfl

/-! ### The occupancy at the boundaries, and the flags of a reachable state -/

theorem occupancy_lt_of_empty {s : State} (h : s.wr - s.rd = 0#32) : (occupancy s).toNat < 2 ^ s.exp.toNat := by
  rw [occupancy, h]
  exact Nat.two_pow_pos _

theorem occupancy_lt_of_one_free {s : State} (h : (s.wr - s.rd).toNat = 2 ^ s.exp.toNat - 1) :
    (occupancy s).toNat < 2 ^ s.exp.toNat :=
  h.trans_lt (Nat.sub_one_lt_of_lt (Nat.two_pow_pos _))

/-- The occupancy is at most CAP, so `free` is what `full` is not (10_state.md R29). -/
theorem hasFree_eq_not_isFull {s : State} (h : BlockInv s) : hasFree s = !isFull s := by
  have hle := h.occupancyLe
  rw [Bool.eq_iff_iff, Bool.not_eq_true', ← Bool.not_eq_true, hasFree_iff_occupancy, isFull_iff_occupancy]
  omega

/-- An eviction makes room for the item appended and no more: a full buffer stays at CAP. -/
theorem occupancy_appendItem_of_full {s : State} (h : BlockInv s) (hf : (occupancy s).toNat = 2 ^ s.exp.toNat)
    (d : BitVec 16) : (occupancy (appendItem d s)).toNat = 2 ^ s.exp.toNat := by
  rw [occupancy_appendItem h, hf, min_eq_right (Nat.le_succ _)]

/-- `full` stays set at an eviction (43_status.md R112). -/
theorem isFull_appendItem {s : State} (h : BlockInv s) (hf : isFull s = true) (d : BitVec 16) :
    isFull (appendItem d s) = true := by
  rw [isFull_iff_occupancy] at hf ⊢
  rw [appendItem_exp, occupancy_appendItem_of_full h hf]

/-! ### The four rules -/

/-- Settles O4: LEN's one word, its answer, the invariant's bounds, and the occupancy after an eviction. -/
theorem lenCommandRule : Obligations.LenCommandRule := by
  refine ⟨fun w => decode_eq_ok_iff w .len, exec_len,
    fun p w s hop hne => issue_status_illegal (i := .len) (by simp) hop hne p s, fun s h => ?_, fun d s h hp hd hf => ?_⟩
  · obtain ⟨-, hcap, hle⟩ := h.bounds
    exact ⟨hle, hcap⟩
  · exact ⟨_, exec_push_fits hp ((itemTooWide_eq_false_iff _ _).2 hd), occupancy_appendItem_of_full h hf d⟩

/-- Settles O6: FULL's one word, its answer, the flag by the occupancy, and a full buffer after an eviction. -/
theorem fullCommandRule : Obligations.FullCommandRule := by
  refine ⟨fun w => decode_eq_ok_iff w .full, fun s => ?_,
    fun p w s hop hne => issue_status_illegal (i := .full) (by simp) hop hne p s, fun s h => ?_, fun d s h hp hd hf => ?_⟩
  · rw [exec_full, flagValue_isFull]
    rfl
  · rw [← Bool.not_eq_true, isFull_iff_occupancy]
    exact ⟨fun h0 => (occupancy_lt_of_empty h0).ne, fun hlast => (occupancy_lt_of_one_free hlast).ne, fun hfull => hfull.ge,
      h.occupancyLe.antisymm⟩
  · exact ⟨_, exec_push_fits hp ((itemTooWide_eq_false_iff _ _).2 hd), isFull_appendItem h hf d,
      respond_inv _ _ _ (appendItem_inv h d)⟩

/-- Settles O7: FREE's one word, its answer, the flag by the occupancy, and its answer beside FULL's. -/
theorem freeCommandRule : Obligations.FreeCommandRule := by
  refine ⟨fun w => decode_eq_ok_iff w .free, fun s => ?_,
    fun p w s hop hne => issue_status_illegal (i := .free) (by simp) hop hne p s, fun s h => ?_⟩
  · rw [exec_free, flagValue_hasFree]
    rfl
  · rw [← Bool.not_eq_true, hasFree_iff_occupancy]
    refine ⟨occupancy_lt_of_empty, occupancy_lt_of_one_free, fun hfull => hfull.not_lt, _, _, _, _, exec_full s, exec_free s,
      rfl, rfl, ?_⟩
    rw [hasFree_eq_not_isFull h, flagValue_not]

/-- Settles O5: CAP's one word, its answer, the exponent at reset, and the exponent that a rejected CONFIG keeps. -/
theorem capCommandRule : Obligations.CapCommandRule := by
  have hanswer : ∀ s : State, exec .cap s = .next (respond .ok true (BitVec.ofNat 32 (2 ^ s.exp.toNat)) s) := fun s => by
    rw [exec_cap, ofNat_two_pow_exp]
  refine ⟨fun w => decode_eq_ok_iff w .cap, hanswer,
    fun p w s hop hne => issue_status_illegal (i := .cap) (by simp) hop hne p s, by decide, fun e s hp he => ?_⟩
  refine ⟨_, _, exec_config_rejected hp ((exponentOk_eq_false_iff e).2 he), hanswer _, ?_⟩
  rw [respond_resp, respond_port, respond_exp, hp]

end Sys2Proof.Machine
end

section
/-! Errors (60_exceptions.md R120 to R123): the two conditions that are answered with an error, the answer to a command with and
without one, and that no command reads a response or the port of an earlier command. -/

namespace Sys2Proof.Machine

/-! ### The two conditions and their answers -/

/-- A CONFIG on port H with an exponent outside 2 to 16 (60_exceptions.md R120). -/
def CapacityRefused (p : Port) (w : Word) : Prop :=
  p = .host ∧ ∃ e, decode w = .ok (.config e) ∧ (e.toNat < 2 ∨ 16 < e.toNat)

/-- A word that is no command, a command from a port that may not issue it, or a PUSH of an item that is too wide
(60_exceptions.md R120). -/
def CommandRefused (p : Port) (w : Word) (width : ItemWidth) : Prop :=
  (¬ ∃ i, decode w = .ok i) ∨ (p ≠ .host ∧ ∃ e, decode w = .ok (.config e)) ∨
    (∃ d, decode w = .ok (.push d) ∧ (p ≠ .producer ∨ 2 ^ width.bits ≤ d.toNat)) ∨
    (p ≠ .consumer ∧ decode w = .ok .pop)

theorem issue_capacityRefused {p : Port} {w : Word} (h : CapacityRefused p w) (s : State) :
    issue p w s = .next (respond .invalidCapacity false 0#32 (withPort p s)) := by
  obtain ⟨rfl, e, hd, he⟩ := h
  rw [issue_ok hd]
  exact exec_config_rejected rfl ((exponentOk_eq_false_iff e).2 he)

theorem issue_commandRefused {p : Port} {w : Word} {s : State} (h : CommandRefused p w s.itemBits) :
    issue p w s = .next (respond .illegalCommand false 0#32 (withPort p s)) := by
  rcases h with hnone | ⟨hp, e, hd⟩ | ⟨d, hd, hbad⟩ | ⟨hp, hd⟩
  · cases hd : decode w with
    | error r => exact issue_error hd p s
    | ok i => exact absurd ⟨i, hd⟩ hnone
  · rw [issue_ok hd]
    exact exec_config_refused (s := withPort p s) hp
  · rw [issue_ok hd]
    rw [← itemTooWide_eq_true_iff] at hbad
    exact exec_push_illegal (s := withPort p s) hbad
  · rw [issue_ok hd]
    exact exec_pop_refused (s := withPort p s) hp

/-- The two conditions exclude each other: the first asks for a CONFIG on port H, which is a legal command. -/
theorem not_commandRefused_of_capacityRefused {p : Port} {w : Word} {width : ItemWidth} (h : CapacityRefused p w) :
    ¬ CommandRefused p w width := by
  obtain ⟨rfl, e, hd, -⟩ := h
  simp [CommandRefused, hd]

/-- A command that neither condition refuses is answered OK. -/
theorem issue_accepted {p : Port} {w : Word} {s : State} (hcap : ¬ CapacityRefused p w)
    (hcmd : ¬ CommandRefused p w s.itemBits) :
    ∃ t vld val, issue p w s = .next t ∧ t.resp = some (p, ⟨.ok, vld, val⟩) := by
  simp only [CommandRefused, not_or] at hcmd
  obtain ⟨hword, hconfig, hpush, hpop⟩ := hcmd
  obtain ⟨i, hd⟩ := not_not.1 hword
  rw [issue_ok hd]
  cases i with
  | config e =>
    have hp : p = .host := by_contra fun hp => hconfig ⟨hp, e, hd⟩
    have he : exponentOk e = true := by
      rw [← Bool.not_eq_false, exponentOk_eq_false_iff]
      exact fun he => hcap ⟨hp, e, hd, he⟩
    exact ⟨_, _, _, exec_config_accepted (s := withPort p s) hp he, rfl⟩
  | push d =>
    have hok : ¬ (p ≠ .producer ∨ 2 ^ s.itemBits.bits ≤ d.toNat) := fun hbad => hpush ⟨d, hd, hbad⟩
    rw [not_or, not_not, not_le, ← itemTooWide_eq_false_iff] at hok
    obtain ⟨hp, hfits⟩ := hok
    refine ⟨_, false, 0#32, exec_push_fits (s := withPort p s) hp hfits, ?_⟩
    rw [respond_resp, appendItem_port, withPort_port]
  | pop =>
    have hp : p = .consumer := by_contra fun hp => hpop ⟨hp, hd⟩
    cases he : isEmpty (withPort p s) with
    | true => exact ⟨_, _, _, exec_pop_empty hp he, rfl⟩
    | false => exact ⟨_, _, _, exec_pop_item hp he, rfl⟩
  | len => exact ⟨_, _, _, exec_len _, rfl⟩
  | cap => exact ⟨_, _, _, exec_cap _, rfl⟩
  | full => exact ⟨_, _, _, exec_full _, rfl⟩
  | free => exact ⟨_, _, _, exec_free _, rfl⟩

/-- Settles O13: each of the two conditions gives its own code, and without them the code is 0. -/
theorem errorCodesAndCauses : Obligations.ErrorCodesAndCauses := by
  intro p w s
  by_cases hcap : CapacityRefused p w
  · exact ⟨_, _, issue_capacityRefused hcap s, rfl, iff_of_true rfl hcap,
      iff_of_false (by decide) (not_commandRefused_of_capacityRefused hcap), fun _ => rfl, rfl⟩
  by_cases hcmd : CommandRefused p w s.itemBits
  · exact ⟨_, _, issue_commandRefused hcmd, rfl, iff_of_false (by decide) hcap, iff_of_true rfl hcmd, fun _ => rfl, rfl⟩
  obtain ⟨t, vld, val, ht, hr⟩ := issue_accepted hcap hcmd
  have hne1 : statusCode .ok ≠ 1#2 := by decide
  have hne2 : statusCode .ok ≠ 2#2 := by decide
  exact ⟨t, _, ht, hr, iff_of_false hne1 hcap, iff_of_false hne2 hcmd, fun h => absurd rfl h, rfl⟩

/-! ### What an earlier response means for a later command: nothing -/

theorem appendItem_setResp (d : BitVec 16) (o : Option (Port × Response)) (s : State) :
    appendItem d { s with resp := o } = { appendItem d s with resp := o } := by
  have hfull : isFull { s with resp := o } = isFull s := rfl
  simp only [appendItem, evictIfFull, hfull]
  split <;> rfl

/-- A command reads no response, and its own takes the place of the latest one. -/
theorem exec_setResp (i : Instr) (o : Option (Port × Response)) (s : State) : exec i { s with resp := o } = exec i s := by
  cases i with
  | push d =>
    by_cases hbad : s.port ≠ .producer ∨ itemTooWide s.itemBits d = true
    · rw [exec_push_illegal hbad, exec_push_illegal (s := { s with resp := o }) hbad]
      rfl
    · simp only [not_or, not_not, Bool.not_eq_true] at hbad
      obtain ⟨hp, hd⟩ := hbad
      rw [exec_push_fits hp hd, exec_push_fits (s := { s with resp := o }) hp hd, appendItem_setResp]
      rfl
  | config | pop | len | cap | full | free => rfl

/-- The port and the response of an earlier command change no later one (60_exceptions.md R121). -/
theorem issue_setPort_setResp (p q : Port) (w : Word) (o : Option (Port × Response)) (s : State) :
    issue q w { s with port := p, resp := o } = issue q w s := by
  cases hd : decode w with
  | error r =>
    rw [issue_error hd, issue_error hd]
    rfl
  | ok i =>
    rw [issue_ok hd, issue_ok hd]
    exact exec_setResp i o (withPort q s)

theorem statusCode_ne_zero {st : Status} (h : st ≠ .ok) : statusCode st ≠ 0#2 := by
  cases st with
  | ok => exact absurd rfl h
  | invalidCapacity | illegalCommand => decide

/-- Settles O14: by the codes (`errorCodesAndCauses`) an error writes the port and the response only, and no later command reads
them. -/
theorem errorWritesNoState : Obligations.ErrorWritesNoState := by
  intro p w s
  obtain ⟨t, r, ht, hr, -, -, herror, -⟩ := errorCodesAndCauses p w s
  refine ⟨t, r, ht, hr, fun hst => ?_⟩
  have hkept : t = { s with port := p, resp := t.resp } := by rw [herror (statusCode_ne_zero hst)]
  rw [hr] at hkept
  exact ⟨hkept, fun q v => hkept ▸ issue_setPort_setResp p q v _ s⟩

/-! ### Overrun and underrun -/

/-- Settles O15: an accepted PUSH evicts a full buffer's oldest item by advancing `rd`, a POP of an empty one only responds. -/
theorem overrunAndUnderrunSucceed : Obligations.OverrunAndUnderrunSucceed := by
  refine ⟨fun d s hp hd hf => ⟨_, exec_push_eq hp hd, rfl, ?_, rfl⟩, fun s hp he => ?_⟩
  · exact congrArg State.rd (evictIfFull_of_full hf)
  · rw [exec_pop_empty hp he, ← hp]
    rfl

end Sys2Proof.Machine
end

section
/-! A PUSH and a POP racing on a full buffer (60_exceptions.md R133): both orders on the bounded queue, which the block refines along
every schedule. -/

namespace Sys2Proof.Machine

/-- What the queue answers and holds after a schedule, the block does. -/
theorem runCommands_of_queueRun {cs : List (Port × Word)} {s : State} {rs : List Response} {q : Queue} (h : BlockInv s)
    (hq : queueRun s.itemBits cs (queueOf s) = (rs, q)) : ∃ t, runCommands cs s = some (rs, t) ∧ contents t = q.items := by
  obtain ⟨rs', t, hrun, -, hqueue⟩ := everyScheduleRefinesQueue cs s h
  cases hqueue.symm.trans hq
  exact ⟨t, hrun, rfl⟩

/-- A PUSH on a queue with room appends its item. -/
theorem queueExec_push_room {width : ItemWidth} {exp : BitVec 5} {b : BitVec 16} {vs : List Item}
    (hb : b.toNat < 2 ^ width.bits) (hroom : vs.length < 2 ^ exp.toNat) :
    queueExec width .producer (encode (.push b)) ⟨exp, vs⟩ = (okNothing, ⟨exp, vs ++ [b]⟩) := by
  rw [queueExec_push hb, keepNewest_of_length_le]
  rwa [List.length_append, List.length_singleton, Nat.succ_le_iff]

/-- A PUSH on a full queue drops the oldest item as well. -/
theorem queueExec_push_full {width : ItemWidth} {exp : BitVec 5} {b : BitVec 16} {v : Item} {vs : List Item}
    (hb : b.toNat < 2 ^ width.bits) (hfull : (v :: vs).length = 2 ^ exp.toNat) :
    queueExec width .producer (encode (.push b)) ⟨exp, v :: vs⟩ = (okNothing, ⟨exp, vs ++ [b]⟩) := by
  have hone : (v :: vs ++ [b]).length - 2 ^ exp.toNat = 1 := by
    rw [List.length_append, hfull, Nat.add_sub_cancel_left, List.length_singleton]
  rw [queueExec_push hb, keepNewest, hone]
  rfl

/-- Settles O43: a POP first leaves room for the PUSH; a PUSH first evicts, and the POP gets the next item. -/
theorem pushPopRaceOutcomes : Obligations.PushPopRaceOutcomes := by
  intro s b a1 a2 rest h hf hitems hb
  have hqueue : queueOf s = ⟨s.exp, a1 :: a2 :: rest⟩ := by rw [queueOf, hitems]
  have hfull : (a1 :: a2 :: rest).length = 2 ^ s.exp.toNat := by
    rw [← hitems, contents_length, (isFull_iff_occupancy s).1 hf]
  have hroom : (a2 :: rest).length < 2 ^ s.exp.toNat := hfull ▸ Nat.lt_succ_self _
  have hpop : (0x3#32 : Word) = encode .pop := rfl
  rw [hpop]
  constructor
  · refine runCommands_of_queueRun h (q := ⟨s.exp, a2 :: rest ++ [b]⟩) ?_
    simp only [hqueue, queueRun, queueExec_pop_item, queueExec_push_room hb hroom]
  · refine runCommands_of_queueRun h (q := ⟨s.exp, rest ++ [b]⟩) ?_
    simp only [hqueue, queueRun, queueExec_push_full hb hfull, List.cons_append, queueExec_pop_item]

end Sys2Proof.Machine
end

section
/-! Reset (70_reset_and_hazards.md R140, R141): the reset values, what the agents see of them, and a reset between two commands. -/

namespace Sys2Proof.Machine

/-- LEN is the word 0x4, answered with the occupancy on every port (43_status.md R110). -/
theorem issue_len (p : Port) (s : State) :
    issue p 0x4#32 s = .next (respond .ok true (occupancy s) (withPort p s)) :=
  issue_ok (decode_encode .len) p s

/-- CAP is the word 0x5, answered with the capacity on every port (43_status.md R111). -/
theorem issue_cap (p : Port) (s : State) :
    issue p 0x5#32 s = .next (respond .ok true (capacity s) (withPort p s)) :=
  issue_ok (decode_encode .cap) p s

/-- An empty buffer shows none of its slots: any contents and any era give the same view (10_state.md R28). -/
theorem sameView_withSlots_of_empty {s : State} (h0 : (occupancy s).toNat = 0) (m : Store) (era : Nat) :
    SameView s (withSlots m era s) :=
  sameView_withSlots (windowReads_of_empty m era h0)

/-- Settles O22: the values of the reset state, LEN's and CAP's answers, and its empty window. -/
theorem resetState : Obligations.ResetState := by
  refine ⟨rfl, rfl, rfl, by decide, by decide, by decide, by decide, by decide, fun p => ?_, ?_⟩
  · exact ⟨_, _, issue_len p .reset, rfl, issue_cap p .reset, rfl⟩
  · exact sameView_withSlots_of_empty rfl

/-- Settles O23: the turn is `resetBlock`, which writes the block alone. -/
theorem resetEventResetsTheBlock : Obligations.ResetEventResetsTheBlock := fun _ _ hs =>
  ⟨_, step_reset hs, rfl, rfl, rfl, contents_resetBlock _, resetBlock_inv _, rfl, rfl, rfl, rfl, rfl⟩

end Sys2Proof.Machine
end

section
/-! The occupancy as one agent sees it between two of its own commands (70_reset_and_hazards.md R144): a bound that every command of
the other ports keeps holds at the end of their schedule. -/

namespace Sys2Proof.Machine

/-- What every command of a schedule keeps, the schedule keeps. -/
theorem runCommands_keeps {Inv : State → Prop} {cs : List (Port × Word)} {s t : State} {rs : List Response}
    (hkeep : ∀ c ∈ cs, ∀ u v, Inv u → issue c.1 c.2 u = .next v → Inv v) (h : Inv s)
    (hrun : runCommands cs s = some (rs, t)) : Inv t := by
  induction cs generalizing s rs with
  | nil =>
    cases hrun
    exact h
  | cons c cs ih =>
    obtain ⟨u, r, rs', hu, -, hrest, -⟩ := runCommands_cons_inv hrun
    obtain ⟨hfirst, hlater⟩ := List.forall_mem_cons.1 hkeep
    exact ih hlater (hfirst s u h hu) hrest

/-! ### The consumer's bound -/

/-- Settles O44: only a POP or an accepted CONFIG takes an item without adding one. -/
theorem consumerSeesOccupancyGrow : Obligations.ConsumerSeesOccupancyGrow := by
  intro cs s h hothers
  obtain ⟨rs, t, hrun⟩ := runCommands_total cs s
  obtain ⟨-, hle⟩ := runCommands_keeps (Inv := fun u => BlockInv u ∧ (occupancy s).toNat ≤ (occupancy u).toNat)
    (fun c hmem u v ⟨hinv, hle⟩ hv =>
      have ⟨hport, hconf⟩ := hothers c hmem
      ⟨issue_inv hinv hv, hle.trans (occupancy_le_of_issue hinv hport hconf hv)⟩) ⟨h, le_rfl⟩ hrun
  exact ⟨rs, t, hrun, hle⟩

/-! ### The producer's bound -/

/-- No command of C or H adds an item: a POP takes one, an accepted CONFIG all of them. -/
theorem occupancy_issue_le {p : Port} {w : Word} {s t : State} (hp : p ≠ .producer) (ht : issue p w s = .next t) :
    (occupancy t).toNat ≤ (occupancy s).toNat := by
  cases issue_writes ht with
  | nothing _ _ hrd hwr _ => rw [occupancy, occupancy, hrd, hwr]
  | config _ _ _ _ _ _ hrd hwr _ =>
    rw [occupancy, hrd, hwr]
    exact Nat.zero_le _
  | push _ _ hp' => exact absurd hp' hp
  | pop _ _ h0 _ _ hrd hwr _ =>
    have hnext : occupancy t = occupancy (advanceRd s) := by
      rw [occupancy, occupancy, hrd, hwr, advanceRd_rd, advanceRd_wr]
    rw [hnext, occupancy_advanceRd (occupancy_ne_zero_of_not_isEmpty h0)]
    exact Nat.sub_le ..

/-- Free space stays free under the commands of C and H; a CONFIG that lowers CAP empties the buffer (40_config.md R81). -/
theorem hasFree_issue {p : Port} {w : Word} {s t : State} (hp : p ≠ .producer) (hfree : hasFree s = true)
    (ht : issue p w s = .next t) : hasFree t = true := by
  cases hc : configures p w with
  | true =>
    obtain ⟨t', ht', -, hempty, -⟩ := issue_of_configures hc s
    cases ht'.symm.trans ht
    rw [hasFree_iff_occupancy, ← contents_length, hempty]
    exact Nat.two_pow_pos _
  | false =>
    rw [hasFree_iff_occupancy] at hfree ⊢
    rw [issue_exp_unchanged hc ht]
    exact (occupancy_issue_le hp ht).trans_lt hfree

/-- A PUSH into a buffer with free space evicts nothing (41_push.md R90). -/
theorem departure_push_of_hasFree {s : State} (hfree : hasFree s = true) (p : Port) (d : BitVec 16) :
    departure p (encode (.push d)) s = [] := by
  have hfull : isFull s = false := by
    rw [← Bool.not_eq_true, isFull_iff_occupancy]
    exact ((hasFree_iff_occupancy s).1 hfree).ne
  simp only [departure, decode_encode, hfull, Bool.and_false, Bool.false_eq_true, if_false]

/-- Settles O45: the bound on the occupancy and the free space are each kept by every command of C and H. -/
theorem producerSeesOccupancyShrink : Obligations.ProducerSeesOccupancyShrink := by
  intro cs s _ hothers
  obtain ⟨rs, t, hrun⟩ := runCommands_total cs s
  refine ⟨rs, t, hrun, ?_, fun hfree => departure_push_of_hasFree ?_ .producer⟩
  · exact runCommands_keeps (Inv := fun u => (occupancy u).toNat ≤ (occupancy s).toNat)
      (fun c hmem _ _ hle hv => (occupancy_issue_le (hothers c hmem) hv).trans hle) le_rfl hrun
  · exact runCommands_keeps (Inv := fun u => hasFree u = true)
      (fun c hmem _ _ hfree hv => hasFree_issue (hothers c hmem) hfree hv) hfree hrun

end Sys2Proof.Machine
end
